-- ==== Sys2Proof/Word.lean ====
section
/-! DEFINITION. The one word type of CORE: a byte (00_scope.md R8: every register and every memory cell holds an
integer in 0 to 255, all values unsigned). -/

namespace Sys2Proof

/-- A register, a memory cell, an opcode byte or an operand byte (00_scope.md R6 `REG_WIDTH`, R8). -/
abbrev Byte := BitVec 8

end Sys2Proof
end

