-- ==== Sys2Proof/Syntax.lean ====
section
/-! DEFINITION. The abstract instructions: one constructor per row of spec/opcode_table.json (30_encoding.md R76), and the
mnemonics they carry. An operand is the whole operand byte (30_encoding.md R74): a register operand above 7 is still an
operand of the instruction, which then raises RegisterIndexFault (60_exceptions.md R165). -/

namespace Sys2Proof

/-- The 17 mnemonics of 30_encoding.md R76, in the table's order. -/
inductive Mnemonic where
  | ldi | prn | hlt | push | pop | jmp | jeq | jne
  | add | mul | cmp | and | or | xor | not | shl | shr
  deriving DecidableEq, Repr

/-- All of them, in the table's order. -/
def Mnemonic.all : List Mnemonic :=
  [.ldi, .prn, .hlt, .push, .pop, .jmp, .jeq, .jne, .add, .mul, .cmp, .and, .or, .xor, .not, .shl, .shr]

/-- An instruction with its operand bytes in encoding order (30_encoding.md R73, R80: regA first). `a` and `b` are
register-index bytes, `i` is LDI's literal. -/
inductive Instr where
  | ldi (a i : Byte)
  | prn (a : Byte)
  | hlt
  | push (a : Byte)
  | pop (a : Byte)
  | jmp (a : Byte)
  | jeq (a : Byte)
  | jne (a : Byte)
  | add (a b : Byte)
  | mul (a b : Byte)
  | cmp (a b : Byte)
  | and (a b : Byte)
  | or (a b : Byte)
  | xor (a b : Byte)
  | not (a : Byte)
  | shl (a b : Byte)
  | shr (a b : Byte)
  deriving DecidableEq, Repr

/-- The row of the opcode table that an instruction belongs to. -/
def Instr.mnemonic : Instr → Mnemonic
  | .ldi _ _ => .ldi
  | .prn _ => .prn
  | .hlt => .hlt
  | .push _ => .push
  | .pop _ => .pop
  | .jmp _ => .jmp
  | .jeq _ => .jeq
  | .jne _ => .jne
  | .add _ _ => .add
  | .mul _ _ => .mul
  | .cmp _ _ => .cmp
  | .and _ _ => .and
  | .or _ _ => .or
  | .xor _ _ => .xor
  | .not _ => .not
  | .shl _ _ => .shl
  | .shr _ _ => .shr

/-- The operand bytes of an instruction, in encoding order (30_encoding.md R73). -/
def Instr.operands : Instr → List Byte
  | .ldi a i => [a, i]
  | .hlt => []
  | .prn a | .push a | .pop a | .jmp a | .jeq a | .jne a | .not a => [a]
  | .add a b | .mul a b | .cmp a b | .and a b | .or a b | .xor a b | .shl a b | .shr a b => [a, b]

/-- `regOperands` of 40_execution_loop.md R96: the operand bytes an instruction uses as register indices, in the order in
which they are checked. -/
def Instr.regOperands : Instr → List Byte
  | .ldi a _ => [a]
  | .hlt => []
  | .prn a | .push a | .pop a | .jmp a | .jeq a | .jne a | .not a => [a]
  | .add a b | .mul a b | .cmp a b | .and a b | .or a b | .xor a b | .shl a b | .shr a b => [a, b]

end Sys2Proof
end

