-- ==== Sys2Proof/WellFormed.lean ====
section
/-! DEFINITION. Well-formedness of an instruction: every byte it uses as a register index selects one of the eight registers
(30_encoding.md R74: `r` selects register `r` when `r` is at most 7). An ill-formed instruction is no encoding error: it
decodes, and running it raises RegisterIndexFault (60_exceptions.md R165). -/

namespace Sys2Proof

/-- The operand byte selects a register (30_encoding.md R74). -/
def selectsRegister (b : Byte) : Bool := decide (b.toNat < 8)

/-- Every register operand selects a register. -/
def Instr.wellFormed (i : Instr) : Bool := i.regOperands.all selectsRegister

end Sys2Proof
end

