-- ==== Sys2Proof/Decode.lean ====
section
/-! DEFINITION. The encoding (spec/30_encoding.md): the fields of an opcode byte, the opcode map, the decoder, total on any
three fetched bytes and rejecting an unregistered opcode by name, and the encoder. -/

namespace Sys2Proof

/-- `v[hi:lo]` of 00_scope.md R7: the unsigned value of bits `hi` down to `lo`. -/
def bits (v : Byte) (hi lo : Nat) : Nat := v.toNat / 2 ^ lo % 2 ^ (hi + 1 - lo)

/-- The decoded record of 30_encoding.md R72. -/
structure OpFields where
  operandCount : Nat
  isAlu : Bool
  setsPc : Bool
  id : Nat
  deriving DecidableEq, Repr

/-- `decode(op)` of 30_encoding.md R72: defined for all 256 bytes, registered or not. -/
def opFields (op : Byte) : OpFields :=
  { operandCount := bits op 7 6
    isAlu := bits op 5 5 == 1
    setsPc := bits op 4 4 == 1
    id := bits op 3 0 }

/-- An assignment of opcode bytes to the mnemonics: the parameter `OPCODE_MAP` of 00_scope.md R6 and 30_encoding.md R76. -/
abbrev OpcodeMap := Mnemonic → Byte

/-- The spec's `OPCODE_MAP`: the table of 30_encoding.md R76. The bytes of LDI, PRN and HLT are the source's, the other 14
are the spec's decision D1 (PRESUMED, log entry 1), and so is NOT's length (D2, log entry 2). -/
def opcodeMap : OpcodeMap
  | .ldi => 0b10000010#8
  | .prn => 0b01000111#8
  | .hlt => 0b00000001#8
  | .push => 0b01000101#8
  | .pop => 0b01000110#8
  | .jmp => 0b01010100#8
  | .jeq => 0b01010101#8
  | .jne => 0b01010110#8
  | .add => 0b10100000#8
  | .mul => 0b10100010#8
  | .cmp => 0b10100111#8
  | .and => 0b10101000#8
  | .or => 0b10101010#8
  | .xor => 0b10101011#8
  | .not => 0b01101001#8
  | .shl => 0b10101100#8
  | .shr => 0b10101101#8

/-- 30_encoding.md R77, first point: how many operand bytes the handler uses. It is a constraint on an opcode map, never a
table of lengths: the pc advance reads the opcode byte's own field (30_encoding.md R71). -/
def Mnemonic.operandBytes : Mnemonic → Nat
  | .hlt => 0
  | .prn | .push | .pop | .jmp | .jeq | .jne | .not => 1
  | .ldi | .add | .mul | .cmp | .and | .or | .xor | .shl | .shr => 2

/-- 30_encoding.md R77, second point: the nine ALU-backed handlers. -/
def Mnemonic.aluBacked : Mnemonic → Bool
  | .add | .mul | .cmp | .and | .or | .xor | .not | .shl | .shr => true
  | .ldi | .prn | .hlt | .push | .pop | .jmp | .jeq | .jne => false

/-- 30_encoding.md R77, third point: the handlers that set the pc themselves. -/
def Mnemonic.handlerSetsPc : Mnemonic → Bool
  | .jmp | .jeq | .jne => true
  | .ldi | .prn | .hlt | .push | .pop | .add | .mul | .cmp | .and | .or | .xor | .not | .shl | .shr => false

/-- An opcode map meets the constraints of 30_encoding.md R77: the three field constraints for each mnemonic, and the 17
bytes distinct. -/
def OpcodeMap.admissible (map : OpcodeMap) : Bool :=
  (Mnemonic.all.all fun m =>
    let d := opFields (map m)
    d.operandCount == m.operandBytes && d.isAlu == m.aluBacked && d.setsPc == m.handlerSetsPc) &&
  (Mnemonic.all.all fun m => Mnemonic.all.all fun n => m == n || map m != map n)

/-- The three bytes that every step fetches, at `pc`, `pc+1` and `pc+2` (40_execution_loop.md R93). -/
structure Window where
  op : Byte
  o1 : Byte
  o2 : Byte
  deriving DecidableEq, Repr

/-- Why three bytes are no instruction. -/
inductive DecodeReject where
  /-- The opcode byte is not registered (30_encoding.md R78). -/
  | unknownInstruction (op : Byte)
  deriving DecidableEq, Repr

/-- Dispatch is keyed on the whole opcode byte (30_encoding.md R79): the mnemonic registered for it, if any. -/
def registered (map : OpcodeMap) (op : Byte) : Option Mnemonic :=
  Mnemonic.all.find? fun m => map m == op

/-- The instruction of a mnemonic with the two fetched operand bytes, those beyond its length ignored
(30_encoding.md R73). -/
def assemble (m : Mnemonic) (o1 o2 : Byte) : Instr :=
  match m with
  | .ldi => .ldi o1 o2
  | .prn => .prn o1
  | .hlt => .hlt
  | .push => .push o1
  | .pop => .pop o1
  | .jmp => .jmp o1
  | .jeq => .jeq o1
  | .jne => .jne o1
  | .add => .add o1 o2
  | .mul => .mul o1 o2
  | .cmp => .cmp o1 o2
  | .and => .and o1 o2
  | .or => .or o1 o2
  | .xor => .xor o1 o2
  | .not => .not o1
  | .shl => .shl o1 o2
  | .shr => .shr o1 o2

/-- The decoder for an opcode map: 40_execution_loop.md R94, R95. -/
def decodeWith (map : OpcodeMap) (w : Window) : Except DecodeReject Instr :=
  match registered map w.op with
  | none => .error (.unknownInstruction w.op)
  | some m => .ok (assemble m w.o1 w.o2)

/-- The decoder of CORE. -/
def decode (w : Window) : Except DecodeReject Instr := decodeWith opcodeMap w

/-- The encoder for an opcode map: one opcode byte, then the operand bytes at ascending addresses (30_encoding.md R70). -/
def encodeWith (map : OpcodeMap) (i : Instr) : List Byte := map i.mnemonic :: i.operands

/-- The encoder of CORE. -/
def encode (i : Instr) : List Byte := encodeWith opcodeMap i

/-- Three bytes from one number, the first byte its lowest eight bits: how spec/opcode_table.json numbers an instruction's
bits. -/
def windowOfNat (n : Nat) : Window :=
  { op := BitVec.ofNat 8 n, o1 := BitVec.ofNat 8 (n / 2 ^ 8), o2 := BitVec.ofNat 8 (n / 2 ^ 16) }

/-- The instruction that the decoder reads from an instruction whose bits, numbered as the opcode table numbers them, are
`w`, every bit from `nbits` up being 0. -/
def decodeTableWord (nbits w : Nat) : Option Instr := (decode (windowOfNat (w % 2 ^ nbits))).toOption

end Sys2Proof
end

