-- ==== Sys2Proof/Config.lean ====
section
/-! DEFINITION. What a CORE is configured with (00_scope.md R6), so far as it is not a default that a test could show
wrong: those defaults stand in Machine/Params.lean and the opcode map in Decode.lean. The exit statuses that R6 marks OPEN
are free values: constants without a body, so that a claim holds for every value of them. -/

namespace Sys2Proof

/-- 00_scope.md R6 `REG_RESET`: what R0 to R3, R5 and R6 are before a program writes them. `zero` is the spec's default,
`unwrittenFaults` its alternative (10_state.md R39). -/
inductive RegReset where
  | zero
  | unwrittenFaults
  deriving DecidableEq, Repr

/-- 00_scope.md R6 `MEM_SIZE`: 256 one-byte cells, addresses 0 to 255 (20_memory.md R50). -/
def Config.memSize : Nat := 256

/-- `EXIT_ADDRESS_FAULT`, OPEN (00_scope.md R6, 92_eei_decisions.md D8): a free value, log entry 8. -/
opaque Config.exitAddressFault : Nat

/-- `EXIT_REGISTER_FAULT`, OPEN (00_scope.md R6, 92_eei_decisions.md D9): a free value, log entry 9. -/
opaque Config.exitRegisterFault : Nat

/-- `EXIT_UNSET_READ`, OPEN (00_scope.md R6, 92_eei_decisions.md D3): a free value, log entry 3. -/
opaque Config.exitUnsetRead : Nat

end Sys2Proof
end

