-- ==== Sys2Proof/Machine/Params.lean ====
section
/-! DEFINITION. The parameters of 00_scope.md R6 that have a value: the two register roles, the stack top, and the reset
values (10_state.md R38). -/

namespace Sys2Proof.Machine

/-- The index of one of the eight registers R0 to R7 (10_state.md R20). -/
abbrev Reg := Fin 8

/-- `SP_INDEX`: R7 is the stack pointer (10_state.md R22). -/
def spIndex : Reg := 7

/-- `BOUND_INDEX`: R4 holds the end-of-program address (10_state.md R23). -/
def boundIndex : Reg := 4

/-- `STACK_TOP`: the highest value to which POP increments SP (43_stack.md R140). -/
def stackTop : Byte := 0xF4#8

/-- The byte that memory holds where nothing has been written: 20_memory.md R51, zero-initialized. -/
def unlistedByte : Byte := 0x00#8

/-- The reset value of R0 to R3, R5 and R6 (10_state.md R38, decision D3; DESIGN CHOICE, log entry 3). -/
def resetGeneral : Byte := 0x00#8

/-- `SP_RESET` (10_state.md R38, decision D4; DESIGN CHOICE, log entry 4). -/
def resetSp : Byte := 0xF4#8

/-- `FL_RESET` (10_state.md R38, decision D5; DESIGN CHOICE, log entry 5). -/
def resetFl : Byte := 0x00#8

/-- The reset vector (10_state.md R38: `pc` starts at 0). -/
def resetPc : Nat := 0

/-- The registers of 10_state.md R39 that start unset under `REG_RESET = unwritten_faults`: all but R4 and R7. -/
def startsUnset (p : RegReset) (r : Reg) : Bool :=
  match p with
  | .zero => false
  | .unwrittenFaults => r != boundIndex && r != spIndex

end Sys2Proof.Machine
end

