-- ==== Sys2Proof/Machine/State.lean ====
section
/-! DEFINITION. The state of CORE as plain data (spec/10_state.md), the reasons a step stops, and the state after reset. -/

namespace Sys2Proof.Machine

/-- The record of the trace port (10_state.md R36): `pc`, the bytes at `pc`, `pc+1`, `pc+2` (`none` for an address above
255, 40_execution_loop.md R92) and the eight registers (`none` for an unset one, log entry 14). -/
structure TraceRecord where
  pc : Nat
  m0 : Option Byte
  m1 : Option Byte
  m2 : Option Byte
  regs : Vector (Option Byte) 8
  deriving DecidableEq, Repr

/-- Why CORE has halted, with the value recorded for it: the rows of 60_exceptions.md R160. -/
inductive HaltCause where
  /-- HLT was executed: no fault. -/
  | normal
  /-- The fetched opcode byte is not registered (R161); the offending byte. -/
  | unknownInstruction (op : Byte)
  /-- The program could not be opened or read (R163); raised by the loader only. -/
  | ioError
  /-- PUSH would move SP below R4 (R162); the unchanged SP, and the trace record of the faulting step. -/
  | stackOverflow (sp : Byte) (dump : TraceRecord)
  /-- A memory access outside 0 to 255 (R164); the address. -/
  | addressFault (addr : Int)
  /-- A register operand byte above 7 (R165); the byte. -/
  | registerIndexFault (r : Byte)
  /-- A read of an unset register (10_state.md R39), only under `REG_RESET = unwritten_faults`; its index. -/
  | unsetRegisterRead (r : Reg)
  deriving DecidableEq, Repr

/-- The run status (10_state.md R31), as the status port presents it (R34): while halted, with the cause and its recorded
value, from which the exit status follows. -/
inductive Status where
  | running
  | halted (cause : HaltCause)
  deriving DecidableEq, Repr

/-- Everything the spec gives the machine between two steps (10_state.md R20 to R36). -/
structure State where
  /-- R0 to R7 (R20). -/
  regs : Vector Byte 8
  /-- Which registers are unset (R39); none is under the default `REG_RESET = zero`. -/
  unset : Vector Bool 8
  /-- The program counter, a natural number that does not wrap (R25, R26). -/
  pc : Nat
  /-- The flags register FL: E bit 0, G bit 1, L bit 2, the rest 0 (R27). -/
  fl : Byte
  /-- The 256-byte memory (20_memory.md R50). -/
  mem : Memory
  /-- The run status (R31). -/
  status : Status
  /-- The bytes presented on the output port, in emission order (R33). -/
  output : List Byte
  /-- The host's `TRACE_ENABLED` (00_scope.md R6). -/
  traceEnabled : Bool
  /-- The records presented on the trace port, in order (R36). -/
  trace : List TraceRecord
  deriving DecidableEq, Repr

/-- Why no step is defined. -/
inductive Fault where
  /-- Raised by `step` in a halted state: no step exists from `Halted` (40_execution_loop.md R91). Safe: nothing is claimed
  of a machine that the spec gives no step. -/
  | noStepFromHalted
  deriving DecidableEq, Repr

/-- What is wrong with a program that the load contract shuts out (70_reset_and_hazards.md R181). -/
inductive LoadProblem where
  /-- The non-empty line of this number (from 0) is no binary literal of a value 0 to 255 (decision D18). -/
  | badLine (line : Nat)
  /-- More than 255 bytes, so that R4 cannot hold their number (decision D17). -/
  | tooLong (length : Nat)
  deriving DecidableEq, Repr

/-- Why the model gives no meaning. -/
inductive Refusal where
  /-- An instruction that has no meaning yet; no arm of `exec` answers it now. Safe. -/
  | notModelled (mnemonic : String)
  /-- Raised by `boot` for a launch that breaks the load contract: it has no run in the spec
  (70_reset_and_hazards.md R181). Safe. -/
  | outsideLoadContract (problem : LoadProblem)
  deriving DecidableEq, Repr

/-- CORE after construction (70_reset_and_hazards.md R180) with the reset values of 10_state.md R38: memory zero, R4 not yet
written by the loader and so 0x00 (DESIGN CHOICE, log entries 17 and 25). -/
def State.constructed (p : RegReset) (traceEnabled : Bool) : State :=
  { regs := #v[resetGeneral, resetGeneral, resetGeneral, resetGeneral, 0x00#8, resetGeneral, resetGeneral, resetSp]
    unset := #v[startsUnset p 0, startsUnset p 1, startsUnset p 2, startsUnset p 3, startsUnset p 4, startsUnset p 5,
      startsUnset p 6, startsUnset p 7]
    pc := resetPc
    fl := resetFl
    mem := []
    status := .running
    output := []
    traceEnabled := traceEnabled
    trace := [] }

/-- The state after reset (10_state.md R38) with nothing loaded, so that `k` = 0 and R4 = 0: the state that loading the
empty program leaves (70_reset_and_hazards.md R181; log entry 17). `REG_RESET` has its default, tracing is off. -/
def State.reset : State := State.constructed .zero false

end Sys2Proof.Machine
end

