-- ==== Sys2Proof/Machine/Ops.lean ====
section
/-! DEFINITION. The named operations over registers, memory and the ports, raising a fault, and the end of a step. What a
handler does is a value of `Except HaltCause State`: an error is a fault raised by it, and `settle` gives it the state at
the start of the step, so that nothing written earlier in the step is kept (60_exceptions.md R167). -/

namespace Sys2Proof.Machine

/-- The exit status of a halt: 60_exceptions.md R160. -/
def HaltCause.exitStatus : HaltCause → Nat
  | .normal => 0
  | .unknownInstruction _ => 1
  | .ioError => 2
  | .stackOverflow _ _ => 3
  | .addressFault _ => Config.exitAddressFault
  | .registerIndexFault _ => Config.exitRegisterFault
  | .unsetRegisterRead _ => Config.exitUnsetRead

/-- The number that the status port presents: `none` while `Running` (10_state.md R34). -/
def Status.exitStatus : Status → Option Nat
  | .running => none
  | .halted c => some c.exitStatus

/-- `x[r]` (00_scope.md R9). -/
def State.reg (s : State) (r : Reg) : Byte := s.regs[r]

/-- Whether register `r` is unset (10_state.md R39). -/
def State.isUnset (s : State) (r : Reg) : Bool := s.unset[r]

/-- An instruction's read of `x[r]`: an unset register raises `UnsetRegisterRead` (10_state.md R39). -/
def State.readReg (s : State) (r : Reg) : Except HaltCause Byte :=
  if s.isUnset r then .error (.unsetRegisterRead r) else .ok (s.reg r)

/-- `x[r] <- v`; a write sets an unset register (10_state.md R39). -/
def State.setReg (s : State) (r : Reg) (v : Byte) : State :=
  { s with regs := s.regs.set r v, unset := s.unset.set r false }

/-- `pc <- target` (00_scope.md R9). -/
def State.setPc (s : State) (target : Nat) : State := { s with pc := target }

/-- `FL <- v` (00_scope.md R9). -/
def State.setFl (s : State) (v : Byte) : State := { s with fl := v }

/-- `emit_out(v)`: the output port takes one byte (10_state.md R33). -/
def State.emitOut (s : State) (v : Byte) : State := { s with output := s.output ++ [v] }

/-- Put a memory in place. -/
def State.setMem (s : State) (m : Memory) : State := { s with mem := m }

/-- An address of the one address space, 0 to 255 (20_memory.md R50). -/
def inMemory (addr : Int) : Bool := decide (0 ≤ addr) && decide (addr < (Config.memSize : Int))

/-- `MemRead(addr, 1)`: 20_memory.md R52. -/
def State.memRead (s : State) (addr : Int) : Except HaltCause Byte :=
  if inMemory addr then .ok (s.mem.read addr.toNat) else .error (.addressFault addr)

/-- `MemWrite(addr, 1, v)`: 20_memory.md R53. -/
def State.memWrite (s : State) (addr : Int) (v : Byte) : Except HaltCause State :=
  if inMemory addr then .ok (s.setMem (s.mem.write addr.toNat v)) else .error (.addressFault addr)

/-- A byte as the trace shows it: absent above address 255 (40_execution_loop.md R92). -/
def State.traceByte (s : State) (addr : Nat) : Option Byte :=
  if addr < Config.memSize then some (s.mem.read addr) else none

/-- A register as the trace shows it: absent while unset (log entry 14). -/
def State.traceReg (s : State) (r : Reg) : Option Byte :=
  if s.isUnset r then none else some (s.reg r)

/-- The trace record of the present state: 10_state.md R36. -/
def State.traceRecord (s : State) : TraceRecord :=
  { pc := s.pc
    m0 := s.traceByte s.pc
    m1 := s.traceByte (s.pc + 1)
    m2 := s.traceByte (s.pc + 2)
    regs := #v[s.traceReg 0, s.traceReg 1, s.traceReg 2, s.traceReg 3, s.traceReg 4, s.traceReg 5, s.traceReg 6,
      s.traceReg 7] }

/-- `emit_trace()`, when `TRACE_ENABLED`: 40_execution_loop.md R92. -/
def State.emitTrace (s : State) : State :=
  { s with trace := if s.traceEnabled then s.trace ++ [s.traceRecord] else s.trace }

/-- `halt(status)` (00_scope.md R9). -/
def State.halt (s : State) (c : HaltCause) : State := { s with status := .halted c }

/-- Taking a fault: 60_exceptions.md R166. The status becomes `Halted` with the cause and its recorded value, and nothing
else changes (R167). There is no handler, no saved state and no return (R170). -/
def State.raise (s : State) (c : HaltCause) : State := s.halt c

/-- The loop's advance of `pc` after a handler: 40_execution_loop.md R98, from the fields of the opcode byte. -/
def State.advance (s : State) (op : Byte) : State :=
  { s with pc := if (opFields op).setsPc then s.pc else s.pc + 1 + (opFields op).operandCount }

/-- The end of the step of an instruction of row `m` that began in `s`: a handler that returned is followed by the pc
advance (40_execution_loop.md R98); one that raised a fault leaves only the fault (60_exceptions.md R166, R167). -/
def settle (m : Mnemonic) (s : State) : Except HaltCause State → Host.Outcome State Fault Refusal
  | .ok t => .next (t.advance (opcodeMap m))
  | .error c => .next (s.raise c)

end Sys2Proof.Machine
end

