-- ==== Sys2Proof/Machine/Flags.lean ====
section
/-! DEFINITION. The flags register: the places of E, G and L (10_state.md R27, decision D6), CMP's computation of all of it
(41_alu.md R120), and the one test JEQ and JNE make. -/

namespace Sys2Proof.Machine

/-- `FL.E` = 1, the rest clear. -/
def flE : Byte := 0b001#8

/-- `FL.G` = 1, the rest clear. -/
def flG : Byte := 0b010#8

/-- `FL.L` = 1, the rest clear. -/
def flL : Byte := 0b100#8

/-- `FL.E` of a flags byte. -/
def isE (fl : Byte) : Bool := fl.getLsbD 0

/-- `FL.G` of a flags byte. -/
def isG (fl : Byte) : Bool := fl.getLsbD 1

/-- `FL.L` of a flags byte. -/
def isL (fl : Byte) : Bool := fl.getLsbD 2

/-- CMP's flags: cleared, then exactly one set by the unsigned comparison (41_alu.md R120). -/
def compareFlags (x y : Byte) : Byte :=
  if x.toNat = y.toNat then flE else if x.toNat > y.toNat then flG else flL

end Sys2Proof.Machine
end

