-- ==== Sys2Proof/Machine/Operands.lean ====
section
/-! DEFINITION. The operand forms of 30_encoding.md R74: a register index, read or written, and LDI's literal, which is its
byte. There are no addressing modes; the one memory operand is the stack's (43_stack.md R140). -/

namespace Sys2Proof.Machine

/-- A register-index operand byte, used whole: above 7 it raises `RegisterIndexFault` (40_execution_loop.md R96). -/
def regIndex (b : Byte) : Except HaltCause Reg :=
  if h : b.toNat < 8 then .ok ⟨b.toNat, h⟩ else .error (.registerIndexFault b)

/-- The operand byte that selects a register. -/
def regByte (r : Reg) : Byte := BitVec.ofNat 8 r.val

/-- The address PUSH stores to, an unbounded integer: `newsp` = `x[7] - 1`, -1 when SP is 0 (43_stack.md R141). -/
def State.pushAddress (s : State) : Int := ((s.reg spIndex).toNat : Int) - 1

/-- PUSH would move SP below the boundary: `newsp < x[4]` on unbounded integers (43_stack.md R141). -/
def State.pushOverflows (s : State) : Bool := decide (s.pushAddress < ((s.reg boundIndex).toNat : Int))

/-- The address POP reads: SP (43_stack.md R142). -/
def State.popAddress (s : State) : Int := ((s.reg spIndex).toNat : Int)

end Sys2Proof.Machine
end

