-- ==== Sys2Proof/Machine/Alu.lean ====
section
/-! DEFINITION. The ALU instructions (spec/41_alu.md). Each result is computed on unbounded integers and then clamped to the
low 8 bits (R110, R111). The ALU is total over the nine operations by construction: there is no other (R121). -/

namespace Sys2Proof.Machine

/-- `clamp(v) = v mod 256`: 41_alu.md R111. -/
def clamp (v : Nat) : Byte := BitVec.ofNat 8 v

/-- 41_alu.md R112. -/
def aluAdd (x y : Byte) : Byte := clamp (x.toNat + y.toNat)

/-- 41_alu.md R113. -/
def aluMul (x y : Byte) : Byte := clamp (x.toNat * y.toNat)

/-- 41_alu.md R114. -/
def aluAnd (x y : Byte) : Byte := clamp (x.toNat &&& y.toNat)

/-- 41_alu.md R115. -/
def aluOr (x y : Byte) : Byte := clamp (x.toNat ||| y.toNat)

/-- 41_alu.md R116. -/
def aluXor (x y : Byte) : Byte := clamp (x.toNat ^^^ y.toNat)

/-- 41_alu.md R117: `255 - x`. -/
def aluNot (x : Byte) : Byte := clamp (255 - x.toNat)

/-- 41_alu.md R118: the whole of `y` is the amount. -/
def aluShl (x y : Byte) : Byte := clamp (x.toNat * 2 ^ y.toNat)

/-- 41_alu.md R119: logical, the whole of `y` is the amount. -/
def aluShr (x y : Byte) : Byte := clamp (x.toNat / 2 ^ y.toNat)

/-- The shape of the two-register operations: both indices checked, `x[a]` and `x[b]` read in this order, `x[a]` written
(41_alu.md R110, 60_exceptions.md R168). -/
def aluTwo (f : Byte → Byte → Byte) (a b : Byte) (s : State) : Except HaltCause State := do
  let ra ← regIndex a
  let rb ← regIndex b
  let x ← s.readReg ra
  let y ← s.readReg rb
  return s.setReg ra (f x y)

/-- The shape of NOT: regB unused. -/
def aluOne (f : Byte → Byte) (a : Byte) (s : State) : Except HaltCause State := do
  let ra ← regIndex a
  let x ← s.readReg ra
  return s.setReg ra (f x)

/-- The shape of CMP: no register written, all of FL written. -/
def aluCompare (f : Byte → Byte → Byte) (a b : Byte) (s : State) : Except HaltCause State := do
  let ra ← regIndex a
  let rb ← regIndex b
  let x ← s.readReg ra
  let y ← s.readReg rb
  return s.setFl (f x y)

/-- ADD: 41_alu.md R112. -/
def execAdd (a b : Byte) (s : State) : Host.Outcome State Fault Refusal := settle .add s (aluTwo aluAdd a b s)

/-- MUL: 41_alu.md R113. -/
def execMul (a b : Byte) (s : State) : Host.Outcome State Fault Refusal := settle .mul s (aluTwo aluMul a b s)

/-- CMP: 41_alu.md R120. -/
def execCmp (a b : Byte) (s : State) : Host.Outcome State Fault Refusal := settle .cmp s (aluCompare compareFlags a b s)

/-- AND: 41_alu.md R114. -/
def execAnd (a b : Byte) (s : State) : Host.Outcome State Fault Refusal := settle .and s (aluTwo aluAnd a b s)

/-- OR: 41_alu.md R115. -/
def execOr (a b : Byte) (s : State) : Host.Outcome State Fault Refusal := settle .or s (aluTwo aluOr a b s)

/-- XOR: 41_alu.md R116. -/
def execXor (a b : Byte) (s : State) : Host.Outcome State Fault Refusal := settle .xor s (aluTwo aluXor a b s)

/-- NOT: 41_alu.md R117. -/
def execNot (a : Byte) (s : State) : Host.Outcome State Fault Refusal := settle .not s (aluOne aluNot a s)

/-- SHL: 41_alu.md R118. -/
def execShl (a b : Byte) (s : State) : Host.Outcome State Fault Refusal := settle .shl s (aluTwo aluShl a b s)

/-- SHR: 41_alu.md R119. -/
def execShr (a b : Byte) (s : State) : Host.Outcome State Fault Refusal := settle .shr s (aluTwo aluShr a b s)

end Sys2Proof.Machine
end

