-- ==== Sys2Proof/Machine/Control.lean ====
section
/-! DEFINITION. The control-transfer instructions JMP, JEQ and JNE (spec/44_control_flow.md). Their opcodes carry the
PC-already-set bit, so the handler sets `pc` on every path and the loop's advance leaves it (40_execution_loop.md R98). -/

namespace Sys2Proof.Machine

/-- `pc <- x[a]`. -/
def jmpHandler (a : Byte) (s : State) : Except HaltCause State := do
  let ra ← regIndex a
  let x ← s.readReg ra
  return s.setPc x.toNat

/-- Jump when `taken`, else `pc <- pc + 2`: the index is checked on both paths (40_execution_loop.md R96), the register is
read only when taken (10_state.md R24). -/
def branchHandler (taken : Bool) (a : Byte) (s : State) : Except HaltCause State := do
  let ra ← regIndex a
  if taken then
    let x ← s.readReg ra
    return s.setPc x.toNat
  else
    return s.setPc (s.pc + 2)

/-- JMP: 44_control_flow.md R151. -/
def execJmp (a : Byte) (s : State) : Host.Outcome State Fault Refusal := settle .jmp s (jmpHandler a s)

/-- JEQ: 44_control_flow.md R152. -/
def execJeq (a : Byte) (s : State) : Host.Outcome State Fault Refusal := settle .jeq s (branchHandler (isE s.fl) a s)

/-- JNE: 44_control_flow.md R153. -/
def execJne (a : Byte) (s : State) : Host.Outcome State Fault Refusal := settle .jne s (branchHandler (!isE s.fl) a s)

end Sys2Proof.Machine
end

