-- ==== Sys2Proof/Machine/Data.lean ====
section
/-! DEFINITION. The data-movement instructions LDI, PRN and HLT (spec/42_data_movement.md). -/

namespace Sys2Proof.Machine

/-- `x[a] <- i`. -/
def ldiHandler (a i : Byte) (s : State) : Except HaltCause State := do
  let ra ← regIndex a
  return s.setReg ra i

/-- `emit_out(x[a])`. -/
def prnHandler (a : Byte) (s : State) : Except HaltCause State := do
  let ra ← regIndex a
  let x ← s.readReg ra
  return s.emitOut x

/-- `running <- false`: the running flag is true exactly when the status is `Running` (10_state.md R31), and a step that ends
with it false ends `Halted(0)` (40_execution_loop.md R99). -/
def hltHandler (s : State) : Except HaltCause State := .ok (s.halt .normal)

/-- LDI: 42_data_movement.md R130. -/
def execLdi (a i : Byte) (s : State) : Host.Outcome State Fault Refusal := settle .ldi s (ldiHandler a i s)

/-- PRN: 42_data_movement.md R131. -/
def execPrn (a : Byte) (s : State) : Host.Outcome State Fault Refusal := settle .prn s (prnHandler a s)

/-- HLT: 42_data_movement.md R132. -/
def execHlt (s : State) : Host.Outcome State Fault Refusal := settle .hlt s (hltHandler s)

end Sys2Proof.Machine
end

