-- ==== Sys2Proof/Machine/Stack.lean ====
section
/-! DEFINITION. The stack instructions PUSH and POP (spec/43_stack.md). -/

namespace Sys2Proof.Machine

/-- 43_stack.md R141. The three registers are readable before anything else is decided, since `UnsetRegisterRead` comes
before `StackOverflow` (60_exceptions.md R168; log entry 15); then `x[7]` is decremented, and `x[a]` is read after that. -/
def pushHandler (a : Byte) (s : State) : Except HaltCause State := do
  let ra ← regIndex a
  let sp ← s.readReg spIndex
  let _ ← s.readReg boundIndex
  let _ ← s.readReg ra
  if s.pushOverflows then
    .error (.stackOverflow sp s.traceRecord)
  else
    let s1 := s.setReg spIndex (BitVec.ofInt 8 s.pushAddress)
    let v ← s1.readReg ra
    s1.memWrite s.pushAddress v

/-- The saturating increment of SP: one more while strictly below `STACK_TOP` (43_stack.md R142). -/
def State.incrementSp (s : State) : State :=
  if (s.reg spIndex).toNat < stackTop.toNat then s.setReg spIndex (BitVec.ofNat 8 ((s.reg spIndex).toNat + 1)) else s

/-- 43_stack.md R142. `x[a]` is written first, and the saturation test and the increment read `x[7]` after that. -/
def popHandler (a : Byte) (s : State) : Except HaltCause State := do
  let ra ← regIndex a
  let _ ← s.readReg spIndex
  let v ← s.memRead s.popAddress
  let s1 := s.setReg ra v
  let _ ← s1.readReg spIndex
  return s1.incrementSp

/-- PUSH: 43_stack.md R141. -/
def execPush (a : Byte) (s : State) : Host.Outcome State Fault Refusal := settle .push s (pushHandler a s)

/-- POP: 43_stack.md R142. -/
def execPop (a : Byte) (s : State) : Host.Outcome State Fault Refusal := settle .pop s (popHandler a s)

end Sys2Proof.Machine
end

