-- ==== Sys2Proof/Machine/Load.lean ====
section
/-! DEFINITION. The load port (10_state.md R35): construction, the load contract on the program's lines, and how a run begins
(70_reset_and_hazards.md R180 to R183). The text is the host's (00_scope.md R5(a)); what the contract makes of it is here. -/

namespace Sys2Proof.Machine

/-- What the loader is given: a program that cannot be opened or read, or its lines. -/
inductive LoadSource where
  | unreadable
  | lines (text : List (List Char))
  deriving DecidableEq, Repr

/-- What one line comes to. -/
inductive LineReading where
  | blank
  | literal (v : Byte)
  | notLiteral
  deriving DecidableEq, Repr

/-- `trim`: white space taken off both ends. -/
def trimLine (t : List Char) : List Char :=
  ((t.dropWhile Char.isWhitespace).reverse.dropWhile Char.isWhitespace).reverse

/-- The value of a row of binary digits, `none` at any other character (log entry 18). -/
def parseBase2 (acc : Nat) : List Char → Option Nat
  | [] => some acc
  | c :: cs => if c = '0' then parseBase2 (2 * acc) cs else if c = '1' then parseBase2 (2 * acc + 1) cs else none

/-- One line of 70_reset_and_hazards.md R181: the text before the first `#`, trimmed, is empty or a literal 0 to 255. -/
def readLine (line : List Char) : LineReading :=
  match trimLine (line.takeWhile (· ≠ '#')) with
  | [] => .blank
  | t =>
    match parseBase2 0 t with
    | some v => if v < 256 then .literal (BitVec.ofNat 8 v) else .notLiteral
    | none => .notLiteral

/-- The program bytes of the lines, in order; a line that breaks the contract is named by its number. -/
def programOfLines (n : Nat) : List (List Char) → Except LoadProblem (List Byte)
  | [] => .ok []
  | line :: rest =>
    match readLine line with
    | .blank => programOfLines (n + 1) rest
    | .literal v => (programOfLines (n + 1) rest).map (v :: ·)
    | .notLiteral => .error (.badLine n)

/-- The load's writes: the bytes from address 0 upward, and their number into R4 (70_reset_and_hazards.md R181). -/
def State.load (s : State) (program : List Byte) : State :=
  (s.setMem (s.mem.writeList 0 program)).setReg boundIndex (BitVec.ofNat 8 program.length)

/-- Construction and load (70_reset_and_hazards.md R180): the state before the first step; `Halted(2)` when the program
cannot be read (R182); a refusal for a launch outside the load contract (R181). In that `Halted(2)` state R4, which no loader
wrote, reads 0x00: DESIGN CHOICE, the spec gives R4 no value there (log entry 25). -/
def boot (p : RegReset) (traceEnabled : Bool) (src : LoadSource) : Host.Outcome State Fault Refusal :=
  match src with
  | .unreadable => .next ((State.constructed p traceEnabled).raise .ioError)
  | .lines text =>
    match programOfLines 0 text with
    | .error e => .refused (.outsideLoadContract e)
    | .ok program =>
      if program.length ≤ 255 then .next ((State.constructed p traceEnabled).load program)
      else .refused (.outsideLoadContract (.tooLong program.length))

end Sys2Proof.Machine
end

