-- ==== Sys2Proof/Machine/Loop.lean ====
section
/-! DEFINITION. The execution loop around the dispatched instruction (spec/40_execution_loop.md): the fetch of three bytes,
and one step for a given dispatch. -/

namespace Sys2Proof.Machine

/-- The fetch: three byte reads in this order, always (40_execution_loop.md R93). -/
def State.fetch (s : State) : Except HaltCause Window := do
  let op ← s.memRead (s.pc : Int)
  let o1 ← s.memRead ((s.pc : Int) + 1)
  let o2 ← s.memRead ((s.pc : Int) + 2)
  return { op := op, o1 := o1, o2 := o2 }

/-- One step over the dispatch `run`: 40_execution_loop.md R90. No step exists from `Halted` (R91); trace (R92), fetch
(R93), decode (R94), unregistered opcode (R95), and then the instruction. -/
def stepWith (run : Instr → State → Host.Outcome State Fault Refusal) (s : State) : Host.Outcome State Fault Refusal :=
  match s.status with
  | .halted _ => .fault .noStepFromHalted
  | .running =>
    match s.emitTrace.fetch with
    | .error c => .next (s.emitTrace.raise c)
    | .ok w =>
      match decode w with
      | .error (.unknownInstruction op) => .next (s.emitTrace.raise (.unknownInstruction op))
      | .ok i => run i s.emitTrace

/-- Place the three bytes of an instruction where the next fetch reads: at `pc`, `pc+1`, `pc+2`. -/
def State.placeAtPc (s : State) (w : Window) : State := s.setMem (s.mem.writeList s.pc [w.op, w.o1, w.o2])

end Sys2Proof.Machine
end

