-- ==== Sys2Proof/Machine/Step.lean ====
section
/-! DEFINITION. One step of CORE, and a state with an instruction placed where its next step fetches. -/

namespace Sys2Proof.Machine

/-- One step: the loop of 40_execution_loop.md R90 over `exec`. -/
def step (s : State) : Host.Outcome State Fault Refusal := stepWith exec s

/-- `s` with the instruction whose bits are `w` (numbered as the opcode table numbers them, every bit from `nbits` up 0)
stored at `pc`, `pc+1` and `pc+2`; log entry 17 says how a program comes to run. -/
def State.withFetchWord (s : State) (nbits w : Nat) : State := s.placeAtPc (windowOfNat (w % 2 ^ nbits))

end Sys2Proof.Machine
end

