-- ==== Sys2Proof/Safety.lean ====
section
/-! DEFINITION. The terms in which claims are made: the invariant of every reachable state, runs and their observation, a
sequence of instructions, and what it means that a part of the state is unchanged. -/

namespace Sys2Proof.Machine

/-- What holds in every state that a run reaches. Memory is in canonical form; `pc` is at most 256 (10_state.md R26); FL is
its reset value or one of CMP's three (R27, R28); R4 and R7 are set (R39). -/
structure State.Inv (s : State) : Prop where
  mem_wf : s.mem.wf
  pc_le : s.pc ≤ 256
  fl_mem : s.fl ∈ [0x00#8, 0x01#8, 0x02#8, 0x04#8]
  bound_set : s.isUnset boundIndex = false
  sp_set : s.isUnset spIndex = false

/-- No register is unset: so it is under `REG_RESET = zero` (10_state.md R38). -/
def State.allSet (s : State) : Prop := ∀ r, s.isUnset r = false

/-- The step ended in a fault: halted for another cause than HLT (60_exceptions.md R160). -/
def Status.isFault : Status → Bool
  | .running => false
  | .halted .normal => false
  | .halted _ => true

/-- The state after `n` steps, or the halted state in which the run ended before (40_execution_loop.md R100). -/
def runFor : Nat → State → State
  | 0, s => s
  | n + 1, s =>
    match step s with
    | .next t => runFor n t
    | .fault _ => s
    | .refused _ => s

/-- The observation of a run at a state (40_execution_loop.md R101): the output list, the status with its cause and recorded
value, and the registers, `pc`, FL and memory. -/
structure Observation where
  output : List Byte
  status : Status
  regs : Vector Byte 8
  unset : Vector Bool 8
  pc : Nat
  fl : Byte
  mem : Memory
  deriving DecidableEq, Repr

/-- What is observed of a state. -/
def State.observe (s : State) : Observation :=
  { output := s.output, status := s.status, regs := s.regs, unset := s.unset, pc := s.pc, fl := s.fl, mem := s.mem }

/-- Instructions one after another, as steps would run them; none runs once the machine is halted. -/
def runInstrs : List Instr → State → Host.Outcome State Fault Refusal
  | [], s => .next s
  | i :: rest, s =>
    match s.status with
    | .halted _ => .fault .noStepFromHalted
    | .running =>
      match exec i s with
      | .next t => runInstrs rest t
      | .fault f => .fault f
      | .refused r => .refused r

/-- Register `r` is unchanged: its value, and whether it is unset. -/
def sameReg (s t : State) (r : Reg) : Prop := t.reg r = s.reg r ∧ t.isUnset r = s.isUnset r

/-- Every byte of memory reads as before. -/
def sameMemory (s t : State) : Prop := ∀ addr : Nat, t.mem.read addr = s.mem.read addr

/-- The output port, the trace port and the trace switch are unchanged. -/
def samePorts (s t : State) : Prop := t.output = s.output ∧ t.trace = s.trace ∧ t.traceEnabled = s.traceEnabled

/-- The registers that a well-formed instruction reads as operands of its rule, in the order of its pseudocode: 10_state.md
R24 and the instruction's own rule. POP's second read of R7 follows its write of `x[a]` and adds no register. -/
def readOrder (i : Instr) (s : State) : List Reg :=
  let reg (b : Byte) : Reg := Fin.ofNat 8 b.toNat
  match i with
  | .ldi _ _ => []
  | .prn a => [reg a]
  | .hlt => []
  | .push a => [spIndex, boundIndex, reg a]
  | .pop _ => [spIndex]
  | .jmp a => [reg a]
  | .jeq a => if isE s.fl then [reg a] else []
  | .jne a => if isE s.fl then [] else [reg a]
  | .add a b => [reg a, reg b]
  | .mul a b => [reg a, reg b]
  | .cmp a b => [reg a, reg b]
  | .and a b => [reg a, reg b]
  | .or a b => [reg a, reg b]
  | .xor a b => [reg a, reg b]
  | .not a => [reg a]
  | .shl a b => [reg a, reg b]
  | .shr a b => [reg a, reg b]

/-- The exact result of an ALU operation other than CMP on two register values, before the clamp: the table of 41_alu.md
R110. NOT's is the complement of an 8-bit value (R117), and `a` is the destination. -/
def aluExact (i : Instr) (x y : Nat) : Option Nat :=
  match i with
  | .add _ _ => some (x + y)
  | .mul _ _ => some (x * y)
  | .and _ _ => some (x &&& y)
  | .or _ _ => some (x ||| y)
  | .xor _ _ => some (x ^^^ y)
  | .not _ => some (255 - x)
  | .shl _ _ => some (x <<< y)
  | .shr _ _ => some (x >>> y)
  | .ldi _ _ | .prn _ | .hlt | .push _ | .pop _ | .jmp _ | .jeq _ | .jne _ | .cmp _ _ => none

/-- A program line in its parts (70_reset_and_hazards.md R181): white space, the text without white space at either end and
without `#`, white space, and a comment from the first `#` on or none. Every line has such parts. -/
structure LineParts (before text after comment : List Char) : Prop where
  blank_before : ∀ c ∈ before, c.isWhitespace = true
  blank_after : ∀ c ∈ after, c.isWhitespace = true
  comment_hash : comment = [] ∨ comment.head? = some '#'
  text_hash : '#' ∉ text
  text_head : ∀ c, text.head? = some c → c.isWhitespace = false
  text_last : ∀ c, text.getLast? = some c → c.isWhitespace = false

/-- The eight binary digits of a byte, bit 7 first. -/
def byteDigits (v : Byte) : List Char := (List.range 8).map fun k => if v.getLsbD (7 - k) then '1' else '0'

/-- The value of a row of binary digits by the weight of each place. -/
def binaryValue : List Char → Nat
  | [] => 0
  | c :: cs => (if c = '1' then 2 ^ cs.length else 0) + binaryValue cs

/-- Balanced PUSH/POP pairs, none of which pops into R7 (43_stack.md R144). -/
inductive Balanced : List Instr → Prop where
  | nil : Balanced []
  | pair (r r' : Reg) (h : r' ≠ spIndex) {l : List Instr} (hl : Balanced l) :
      Balanced (.push (regByte r) :: (l ++ [.pop (regByte r')]))
  | append {l l' : List Instr} (hl : Balanced l) (hl' : Balanced l') : Balanced (l ++ l')

end Sys2Proof.Machine
end

