-- ==== Sys2Proof/Certificates/Slice0/Obligations.lean ====
section
/-! DEFINITION. The statements for the provers. A register operand is written `regByte r`, the operand byte that selects
register `r`; bytes above 7 have a statement of their own (RegisterOperandAboveSevenHalts), and so have unset registers
(UnsetRegisterReadHalts). -/

open Sys2Proof Sys2Proof.Machine

/- ==== Encoding ==== -/

/-- 30_encoding.md R72: the four fields of an opcode byte, for all 256 bytes. -/
def Obligations.OpcodeFieldsAreItsBits : Prop :=
  ∀ op : Byte,
    opFields op =
      { operandCount := op.toNat / 64
        isAlu := op.getLsbD 5
        setsPc := op.getLsbD 4
        id := op.toNat % 16 }

/-- 30_encoding.md R77 of the table of R76: each row's operand count, ALU bit and PC-already-set bit, and the 17 bytes
distinct. The bytes other than 0x82, 0x47 and 0x01 are the spec's decision D1, NOT's length is D2 (log entries 1 and 2). -/
def Obligations.OpcodeMapMeetsFieldConstraints : Prop :=
  (∀ m : Mnemonic,
    (opFields (opcodeMap m)).operandCount = m.operandBytes ∧
    (opFields (opcodeMap m)).isAlu = m.aluBacked ∧
    (opFields (opcodeMap m)).setsPc = m.handlerSetsPc) ∧
  (∀ m n : Mnemonic, opcodeMap m = opcodeMap n → m = n)

/-- Words written out from the encodings of 30_encoding.md R76 and 95_test_vectors.md decode to their instructions: one of
each format and family. The bytes other than LDI's, PRN's and HLT's are the spec's decision D1 (log entry 1). -/
def Obligations.WrittenWordsDecode : Prop :=
  decode { op := 0b10000010#8, o1 := 0b00000000#8, o2 := 0b00001000#8 } = .ok (.ldi 0 8) ∧
  decode { op := 0b01000111#8, o1 := 0b00000000#8, o2 := 0b00000001#8 } = .ok (.prn 0) ∧
  decode { op := 0b00000001#8, o1 := 0b00000000#8, o2 := 0b00000000#8 } = .ok .hlt ∧
  decode { op := 0b01000110#8, o1 := 0b00000001#8, o2 := 0b01000111#8 } = .ok (.pop 1) ∧
  decode { op := 0b01010110#8, o1 := 0b00000011#8, o2 := 0b00000001#8 } = .ok (.jne 3) ∧
  decode { op := 0b10101100#8, o1 := 0b00000001#8, o2 := 0b00000011#8 } = .ok (.shl 1 3) ∧
  decode { op := 0b01101001#8, o1 := 0b00000010#8, o2 := 0b10011001#8 } = .ok (.not 2) ∧
  decode { op := 0b00000000#8, o1 := 0b00000000#8, o2 := 0b00000000#8 } = .error (.unknownInstruction 0)

/-- The decoder reads back every encoded instruction, whatever bytes follow it: 30_encoding.md R70, R73, R76. Every operand
byte is allowed, also one above 7. -/
def Obligations.EncodedInstructionDecodesToItself : Prop :=
  ∀ (i : Instr) (op o1 o2 : Byte) (rest tail : List Byte),
    encode i ++ tail = op :: o1 :: o2 :: rest → decode { op := op, o1 := o1, o2 := o2 } = .ok i

/-- The encoding of a decoded instruction is what the fetched window begins with: no fetched bit that belongs to the
instruction is dropped (30_encoding.md R70, R73). -/
def Obligations.DecodedInstructionEncodesToWindow : Prop :=
  ∀ (w : Window) (i : Instr), decode w = .ok i → encode i <+: [w.op, w.o1, w.o2]

/-- 30_encoding.md R76: another opcode map that meets R77 can be put in the place of the spec's. For every admissible map
the round trip holds, the length is the opcode byte's own field plus one, and exactly the bytes outside the map are
unregistered. -/
def Obligations.AdmissibleOpcodeMapRoundTrips : Prop :=
  ∀ map : OpcodeMap, map.admissible = true →
    (∀ (i : Instr) (op o1 o2 : Byte) (rest tail : List Byte),
      encodeWith map i ++ tail = op :: o1 :: o2 :: rest →
        decodeWith map { op := op, o1 := o1, o2 := o2 } = .ok i ∧
        (encodeWith map i).length = 1 + (opFields op).operandCount) ∧
    (∀ w : Window, (∀ m, map m ≠ w.op) ↔ decodeWith map w = .error (.unknownInstruction w.op))

/-- 30_encoding.md R78: of the 256 opcode bytes 17 are registered and 239 are not, 0x00 among these. (Which ones are is the
spec's decision D1, log entry 1; that there are 17 distinct ones is R77.) -/
def Obligations.UnregisteredBytesNumber239 : Prop :=
  ((List.range 256).filter fun n => (registered opcodeMap (BitVec.ofNat 8 n)).isNone).length = 239 ∧
  registered opcodeMap 0x00#8 = none

/- ==== Memory ==== -/

/-- The canonical form makes equal memories equal data: two canonical memories that read alike everywhere are one. The form
is the model's own. -/
def Obligations.CanonicalMemoriesReadingAlikeAreEqual : Prop :=
  ∀ m n : Memory, m.wf → n.wf → (∀ addr : Nat, m.read addr = n.read addr) → m = n

/- ==== Reset and load ==== -/

/-- 10_state.md R38 at k = 0: every piece of state after reset. The zeros of R0 to R3, R5 and R6, SP's 0xF4 and FL's 0x00 are
the spec's decisions D3 to D5 (log entries 3 to 5). -/
def Obligations.ResetStateHoldsResetValues : Prop :=
  (∀ r : Reg, State.reset.reg r = if r = 7 then 0xF4#8 else 0x00#8) ∧
  (∀ r : Reg, State.reset.isUnset r = false) ∧
  (∀ addr : Nat, State.reset.mem.read addr = 0x00#8) ∧
  State.reset.pc = 0 ∧ State.reset.fl = 0x00#8 ∧ State.reset.status = .running ∧ State.reset.output = []

/-- 10_state.md R39 (decision D3, log entry 3): under `unwritten_faults` exactly R4 and R7 are set after construction, and
everything else is as under `zero`. -/
def Obligations.UnwrittenFaultsLeavesSixRegistersUnset : Prop :=
  ∀ tr : Bool,
    (∀ r : Reg, (State.constructed .unwrittenFaults tr).isUnset r = true ↔ r ≠ 4 ∧ r ≠ 7) ∧
    { State.constructed .unwrittenFaults tr with unset := (State.constructed .zero tr).unset } = State.constructed .zero tr

/-- 70_reset_and_hazards.md R181, the load's effect: a launch whose lines give at most 255 program bytes starts with those
bytes from address 0 upward, zero beyond them, their number in R4, and every other piece of state as constructed. -/
def Obligations.LoadPlacesProgramAndItsLength : Prop :=
  ∀ (p : RegReset) (tr : Bool) (text : List (List Char)) (program : List Byte),
    programOfLines 0 text = .ok program → program.length ≤ 255 →
    ∃ t, boot p tr (.lines text) = .next t ∧
      (∀ addr : Nat, addr < 256 → t.mem.read addr = program.getD addr 0x00#8) ∧
      (t.reg 4).toNat = program.length ∧ t.isUnset 4 = false ∧
      (∀ r : Reg, r ≠ 4 → sameReg (State.constructed p tr) t r) ∧
      t.pc = 0 ∧ t.fl = 0x00#8 ∧ t.status = .running ∧ t.output = [] ∧ t.trace = [] ∧ t.traceEnabled = tr

/-- 70_reset_and_hazards.md R181, a line: the eight binary digits of any byte read as that byte, with or without white space
before and after them and with or without a comment; a line of nothing but white space and a comment, the empty line too, is
skipped. The class of white space is log entry 18's. -/
def Obligations.BinaryLineReadsAsItsByte : Prop :=
  ∀ before after comment : List Char, LineParts before [] after comment →
    (∀ v : Byte, readLine (before ++ byteDigits v ++ after ++ comment) = .literal v) ∧
    readLine (before ++ after ++ comment) = .blank

/-- 70_reset_and_hazards.md R181 with D18, which lines are literals: a line whose text is not empty is no literal exactly when
the text holds a character other than 0 and 1 or its value is above 255, and otherwise reads as that value, whatever the
number of its digits; and every line has such parts. The form of a literal is the model's choice (log entry 18). -/
def Obligations.LineTextDecidesLiteral : Prop :=
  (∀ before text after comment : List Char, LineParts before text after comment → text ≠ [] →
    (readLine (before ++ text ++ after ++ comment) = .notLiteral ↔
      (∃ c ∈ text, c ≠ '0' ∧ c ≠ '1') ∨ 255 < binaryValue text) ∧
    (∀ v : Byte, readLine (before ++ text ++ after ++ comment) = .literal v ↔
      (∀ c ∈ text, c = '0' ∨ c = '1') ∧ binaryValue text = v.toNat)) ∧
  (∀ line : List Char, ∃ before text after comment, line = before ++ text ++ after ++ comment ∧
    LineParts before text after comment)

/-- 70_reset_and_hazards.md R181 with D17 and D18: a launch outside the load contract is refused; it has no run. The first
line that is no literal is named by its number, counted from 0; with no such line, more than 255 bytes are refused. Which
lines are no literals is LineTextDecidesLiteral. -/
def Obligations.LaunchOutsideLoadContractRefused : Prop :=
  ∀ (p : RegReset) (tr : Bool) (text : List (List Char)),
    (∀ good line rest, text = good ++ line :: rest → (∀ l ∈ good, readLine l ≠ .notLiteral) → readLine line = .notLiteral →
      boot p tr (.lines text) = .refused (.outsideLoadContract (.badLine good.length))) ∧
    (∀ e, programOfLines 0 text = .error e → boot p tr (.lines text) = .refused (.outsideLoadContract e)) ∧
    (∀ program, programOfLines 0 text = .ok program → 255 < program.length →
      boot p tr (.lines text) = .refused (.outsideLoadContract (.tooLong program.length)))

/-- 70_reset_and_hazards.md R182: a program that cannot be read halts the machine with exit status 2 before any step, and
nothing is emitted. -/
def Obligations.UnreadableProgramHaltsBeforeAnyStep : Prop :=
  ∀ (p : RegReset) (tr : Bool),
    ∃ t, boot p tr .unreadable = .next t ∧ t.status = .halted .ioError ∧ t.status.exitStatus = some 2 ∧ t.output = [] ∧
      step t = .fault .noStepFromHalted

/- ==== The step ==== -/

/-- 40_execution_loop.md R91: from `Halted` no step exists. -/
def Obligations.HaltedMachineHasNoStep : Prop :=
  ∀ (s : State) (c : HaltCause), s.status = .halted c →
    step s = .fault .noStepFromHalted ∧ ∀ n : Nat, runFor n s = s

/-- 40_execution_loop.md R90: a running machine always has a step: nothing is refused, and every fault of the spec is a
halted next state. -/
def Obligations.RunningMachineAlwaysSteps : Prop :=
  ∀ s : State, s.status = .running → ∃ t, step s = .next t

/-- 40_execution_loop.md R90: when the three bytes at `pc` decode to an instruction, a step is `exec` of it at that state,
after the trace record (R92) and nothing else; the pc advance is part of `exec`. -/
def Obligations.StepRunsDecodedInstruction : Prop :=
  ∀ (s : State) (i : Instr), s.status = .running → s.pc ≤ 253 →
    decode { op := s.mem.read s.pc, o1 := s.mem.read (s.pc + 1), o2 := s.mem.read (s.pc + 2) } = .ok i →
    step s = exec i { s with trace := if s.traceEnabled then s.trace ++ [s.traceRecord] else s.trace }

/-- 40_execution_loop.md R93, 60_exceptions.md R164: a window that leaves memory faults at the first address above 255,
before dispatch. The fault is the spec's decision D8 (log entry 8). -/
def Obligations.FetchBeyondMemoryHalts : Prop :=
  ∀ s : State, s.status = .running → 254 ≤ s.pc →
    step s = .next { s.emitTrace with
      status := .halted (.addressFault (if s.pc ≤ 255 then 256 else (s.pc : Int))) }

/-- 60_exceptions.md R161: an opcode byte that no row of the opcode map has halts the machine with exit status 1, the byte
recorded, `pc` where it was; and only such a byte does. -/
def Obligations.UnregisteredOpcodeHalts : Prop :=
  ∀ s : State, s.status = .running → s.pc ≤ 253 →
    ((∀ m, opcodeMap m ≠ s.mem.read s.pc) →
      step s = .next { s.emitTrace with status := .halted (.unknownInstruction (s.mem.read s.pc)) } ∧
      (HaltCause.unknownInstruction (s.mem.read s.pc)).exitStatus = 1) ∧
    (∀ t op, step s = .next t → t.status = .halted (.unknownInstruction op) →
      op = s.mem.read s.pc ∧ ∀ m, opcodeMap m ≠ op)

/-- 40_execution_loop.md R96, 60_exceptions.md R165: the first register operand above 7 halts the machine, that byte
recorded, whatever else holds; so it does on both paths of JEQ and JNE, and before a stack overflow (R168). The fault is the
spec's decision D9 (log entry 9). -/
def Obligations.RegisterOperandAboveSevenHalts : Prop :=
  ∀ (i : Instr) (s : State) (b : Byte), i.regOperands.find? (fun o => decide (7 < o.toNat)) = some b →
    exec i s = .next { s with status := .halted (.registerIndexFault b) }

/-- 10_state.md R39, 60_exceptions.md R168: the first unset register among those the instruction reads, in its pseudocode's
order, halts the machine, its index recorded, and comes before a stack overflow. The fault is the spec's decision D3 (log
entries 3 and 15). -/
def Obligations.UnsetRegisterReadHalts : Prop :=
  ∀ (i : Instr) (s : State) (r : Reg), i.wellFormed = true → (readOrder i s).find? s.isUnset = some r →
    exec i s = .next { s with status := .halted (.unsetRegisterRead r) }

/-- 60_exceptions.md R167, for the whole step: after a fault everything but the run status is as at the start of the step
(the trace port, which is no state of the program, has the step's record). Precision is the spec's decision D10 (log entry
10). That the trace port takes no second record, and none with tracing off, when the fault is StackOverflow is DEDUCED: the
dump of R162 stands in the recorded value (log entry 12). -/
def Obligations.FaultsArePrecise : Prop :=
  ∀ (s t : State) (c : HaltCause), step s = .next t → t.status = .halted c → c ≠ .normal →
    t = { s.emitTrace with status := .halted c }

/-- 60_exceptions.md R177, R132: HLT is the only stop that is no fault, and every HLT is one. -/
def Obligations.OnlyHltHaltsNormally : Prop :=
  ∀ s t : State, step s = .next t → s.pc ≤ 253 → (t.status = .halted .normal ↔ s.mem.read s.pc = 0b00000001#8)

/-- 40_execution_loop.md R98: after an instruction that did not fault, `pc` has advanced by one and the operand count of
the opcode byte's own field where its PC-already-set bit is 0 (HLT too), and is what the handler set where it is 1; a
fault does not advance it. -/
def Obligations.PcAdvanceFollowsOpcodeFields : Prop :=
  ∀ (i : Instr) (s t : State), s.status = .running → exec i s = .next t →
    (t.status.isFault = false →
      ((opFields (opcodeMap i.mnemonic)).setsPc = false →
        t.pc = s.pc + 1 + (opFields (opcodeMap i.mnemonic)).operandCount ∧ t.pc = s.pc + 1 + i.operands.length) ∧
      (∀ r, i = .jmp (regByte r) → t.pc = (s.reg r).toNat) ∧
      (∀ r, i = .jeq (regByte r) → t.pc = if isE s.fl then (s.reg r).toNat else s.pc + 2) ∧
      (∀ r, i = .jne (regByte r) → t.pc = if isE s.fl then s.pc + 2 else (s.reg r).toNat)) ∧
    (t.status.isFault = true → t.pc = s.pc)

/-- 40_execution_loop.md R92: a step presents one trace record, of the state at its start, when tracing is enabled, and
none otherwise; a fetch that faults presents it too. Where the three bytes begin is the spec's decision D15 (log entry
13). That a step ending in StackOverflow is no exception, with tracing on or off, is DEDUCED: the dump of R162 stands in the
recorded value (log entry 12). -/
def Obligations.StepPresentsOneTraceRecord : Prop :=
  ∀ s t : State, step s = .next t →
    t.traceEnabled = s.traceEnabled ∧
    t.trace = (if s.traceEnabled then s.trace ++ [s.traceRecord] else s.trace) ∧
    s.traceRecord.pc = s.pc ∧
    s.traceRecord.m0 = (if s.pc ≤ 255 then some (s.mem.read s.pc) else none) ∧
    s.traceRecord.m1 = (if s.pc + 1 ≤ 255 then some (s.mem.read (s.pc + 1)) else none) ∧
    s.traceRecord.m2 = (if s.pc + 2 ≤ 255 then some (s.mem.read (s.pc + 2)) else none) ∧
    (∀ r : Reg, s.isUnset r = false → s.traceRecord.regs[r] = some (s.reg r))

/- ==== Results: where each instruction completes ==== -/

/-- 42_data_movement.md R130, LDI: the register is the literal, `pc` advances by 3, nothing else changes. R4 and R7 may be
named (decision D25, log entry 24). -/
def Obligations.LdiLoadsLiteral : Prop :=
  ∀ (r : Reg) (v : Byte) (s : State),
    exec (.ldi (regByte r) v) s =
      .next { s with regs := s.regs.set r v, unset := s.unset.set r false, pc := s.pc + 3 }

/-- 42_data_movement.md R131, PRN: the output port takes the register's value after what it has, `pc` advances by 2. -/
def Obligations.PrnEmitsRegister : Prop :=
  ∀ (r : Reg) (s : State), s.isUnset r = false →
    exec (.prn (regByte r)) s = .next { s with output := s.output ++ [s.regs[r]], pc := s.pc + 2 }

/-- 42_data_movement.md R132, HLT, as a step over the byte 0x01 inside memory: `pc` is one past it, the status is
`Halted(0)`, no step follows; the two bytes after it are ignored. -/
def Obligations.HltHaltsWithStatusZero : Prop :=
  (∀ s : State, exec .hlt s = .next { s with status := .halted .normal, pc := s.pc + 1 }) ∧
  HaltCause.normal.exitStatus = 0 ∧
  (∀ s : State, s.status = .running → s.pc ≤ 253 → s.mem.read s.pc = 0b00000001#8 →
    ∃ t, step s = .next t ∧ t = { s.emitTrace with status := .halted .normal, pc := s.pc + 1 } ∧
      step t = .fault .noStepFromHalted)

/-- 43_stack.md R141, PUSH where `x[7] - 1` is at least `x[4]`: SP is one less, and the byte at the new SP is the register
read after the decrement, so PUSH R7 stores the decremented SP (decision D12, log entry 11). -/
def Obligations.PushStoresAtDecrementedSp : Prop :=
  ∀ (r : Reg) (s : State), s.isUnset spIndex = false → s.isUnset boundIndex = false → s.isUnset r = false →
    (s.reg 4).toNat + 1 ≤ (s.reg 7).toNat →
    exec (.push (regByte r)) s =
      .next { s with
        regs := s.regs.set 7 (BitVec.ofNat 8 ((s.reg 7).toNat - 1))
        unset := s.unset.set 7 false
        mem := s.mem.write ((s.reg 7).toNat - 1) (if r = 7 then BitVec.ofNat 8 ((s.reg 7).toNat - 1) else s.reg r)
        pc := s.pc + 2 }

/-- 43_stack.md R141, 60_exceptions.md R162: PUSH where `x[7] - 1` is below `x[4]` (always at SP = 0) halts with exit status
3, the unchanged SP and the trace record of the step recorded, traced or not. That the dump stands in the recorded value is
DEDUCED (log entry 12). -/
def Obligations.PushBelowBoundaryOverflows : Prop :=
  ∀ (r : Reg) (s : State), s.isUnset spIndex = false → s.isUnset boundIndex = false → s.isUnset r = false →
    (s.reg 7).toNat < (s.reg 4).toNat + 1 →
    exec (.push (regByte r)) s = .next { s with status := .halted (.stackOverflow (s.reg 7) s.traceRecord) } ∧
    (HaltCause.stackOverflow (s.reg 7) s.traceRecord).exitStatus = 3

/-- 43_stack.md R142, POP into a register other than R7: the byte at SP, and SP one more if below 0xF4; POP R7: the popped
byte, one more if below 0xF4 (decision D13, log entry 11). Memory keeps the popped byte. -/
def Obligations.PopLoadsAndSaturates : Prop :=
  ∀ (r : Reg) (s : State), s.isUnset spIndex = false →
    let v := s.mem.read (s.reg 7).toNat
    let bump : Byte → Byte := fun x => if x.toNat < 0xF4 then BitVec.ofNat 8 (x.toNat + 1) else x
    ∃ t, exec (.pop (regByte r)) s = .next t ∧ t.mem = s.mem ∧ t.pc = s.pc + 2 ∧
      (r ≠ 7 → t.reg r = v ∧ t.reg 7 = bump (s.reg 7)) ∧
      (r = 7 → t.reg 7 = bump v) ∧
      t.isUnset r = false ∧
      (∀ q : Reg, q ≠ r → q ≠ 7 → sameReg s t q) ∧
      t.fl = s.fl ∧ t.status = s.status ∧ samePorts s t

/-- 44_control_flow.md R151, JMP: `pc` is the register's value exactly, nothing else changes. -/
def Obligations.JmpSetsPcToRegister : Prop :=
  ∀ (r : Reg) (s : State), s.isUnset r = false →
    exec (.jmp (regByte r)) s = .next { s with pc := (s.reg r).toNat }

/-- 44_control_flow.md R152, JEQ: taken exactly when `FL.E` is 1, else `pc` advances by 2; the register is read only when
taken. -/
def Obligations.JeqBranchesOnEqual : Prop :=
  ∀ (r : Reg) (s : State), (s.fl.getLsbD 0 = true → s.isUnset r = false) →
    exec (.jeq (regByte r)) s =
      .next { s with pc := if s.fl.getLsbD 0 then (s.reg r).toNat else s.pc + 2 }

/-- 44_control_flow.md R153, JNE: taken exactly when `FL.E` is 0, else `pc` advances by 2; the register is read only when
taken. -/
def Obligations.JneBranchesOnNotEqual : Prop :=
  ∀ (r : Reg) (s : State), (s.fl.getLsbD 0 = false → s.isUnset r = false) →
    exec (.jne (regByte r)) s =
      .next { s with pc := if s.fl.getLsbD 0 then s.pc + 2 else (s.reg r).toNat }

/-- 41_alu.md R112, R113, ADD and MUL: the unsigned sum and product modulo 256, `pc` advances by 3, FL and everything else
unchanged. -/
def Obligations.AddAndMulWrapModulo256 : Prop :=
  ∀ (ra rb : Reg) (s : State), s.isUnset ra = false → s.isUnset rb = false →
    exec (.add (regByte ra) (regByte rb)) s =
      .next { s with regs := s.regs.set ra (s.reg ra + s.reg rb), unset := s.unset.set ra false, pc := s.pc + 3 } ∧
    exec (.mul (regByte ra) (regByte rb)) s =
      .next { s with regs := s.regs.set ra (s.reg ra * s.reg rb), unset := s.unset.set ra false, pc := s.pc + 3 }

/-- 41_alu.md R114 to R116, AND, OR and XOR: bit by bit, `pc` advances by 3, FL and everything else unchanged. -/
def Obligations.AndOrXorActBitwise : Prop :=
  ∀ (ra rb : Reg) (s : State), s.isUnset ra = false → s.isUnset rb = false →
    exec (.and (regByte ra) (regByte rb)) s =
      .next { s with regs := s.regs.set ra (s.reg ra &&& s.reg rb), unset := s.unset.set ra false, pc := s.pc + 3 } ∧
    exec (.or (regByte ra) (regByte rb)) s =
      .next { s with regs := s.regs.set ra (s.reg ra ||| s.reg rb), unset := s.unset.set ra false, pc := s.pc + 3 } ∧
    exec (.xor (regByte ra) (regByte rb)) s =
      .next { s with regs := s.regs.set ra (s.reg ra ^^^ s.reg rb), unset := s.unset.set ra false, pc := s.pc + 3 }

/-- 41_alu.md R117, NOT: the 8-bit complement; `pc` advances by 2 (the length is the spec's decision D2, log entry 2). -/
def Obligations.NotComplements : Prop :=
  ∀ (r : Reg) (s : State), s.isUnset r = false →
    exec (.not (regByte r)) s =
      .next { s with regs := s.regs.set r (~~~ s.reg r), unset := s.unset.set r false, pc := s.pc + 2 }

/-- 41_alu.md R118, R119, SHL and SHR: the amount is the whole value of `x[b]`, not masked, so that 8 or more gives 0; zeros
enter at either end. -/
def Obligations.ShiftsUseWholeAmount : Prop :=
  ∀ (ra rb : Reg) (s : State), s.isUnset ra = false → s.isUnset rb = false →
    exec (.shl (regByte ra) (regByte rb)) s =
      .next { s with
        regs := s.regs.set ra (if (s.reg rb).toNat < 8 then s.reg ra <<< (s.reg rb).toNat else 0x00#8)
        unset := s.unset.set ra false
        pc := s.pc + 3 } ∧
    exec (.shr (regByte ra) (regByte rb)) s =
      .next { s with
        regs := s.regs.set ra (if (s.reg rb).toNat < 8 then s.reg ra >>> (s.reg rb).toNat else 0x00#8)
        unset := s.unset.set ra false
        pc := s.pc + 3 }

/-- 41_alu.md R120, CMP: no register changes; FL is cleared and exactly one of E, G and L is set, by the unsigned order. The
places of the three bits are the spec's decision D6 (log entry 6). -/
def Obligations.CmpSetsExactlyOneFlag : Prop :=
  ∀ (ra rb : Reg) (s : State), s.isUnset ra = false → s.isUnset rb = false →
    ∃ fl : Byte, exec (.cmp (regByte ra) (regByte rb)) s = .next { s with fl := fl, pc := s.pc + 3 } ∧
      (fl = 0x01#8 ↔ (s.reg ra).toNat = (s.reg rb).toNat) ∧
      (fl = 0x02#8 ↔ (s.reg rb).toNat < (s.reg ra).toNat) ∧
      (fl = 0x04#8 ↔ (s.reg ra).toNat < (s.reg rb).toNat) ∧
      fl ∈ [0x01#8, 0x02#8, 0x04#8]

/-- 41_alu.md R110, R111: the ALU's table. For each of the eight operations that write, the result is the exact value on
unbounded integers modulo 256, no flag records a carry or an overflow; CMP mutates no register, clears FL and sets
exactly one flag. -/
def Obligations.AluTableOnUnboundedIntegersThenClamp : Prop :=
  ∀ (i : Instr) (ra rb : Reg) (s : State),
    i ∈ [.add (regByte ra) (regByte rb), .mul (regByte ra) (regByte rb), .and (regByte ra) (regByte rb),
      .or (regByte ra) (regByte rb), .xor (regByte ra) (regByte rb), .not (regByte ra), .shl (regByte ra) (regByte rb),
      .shr (regByte ra) (regByte rb), .cmp (regByte ra) (regByte rb)] →
    s.isUnset ra = false → s.isUnset rb = false →
    ∃ t, exec i s = .next t ∧ (∀ r : Reg, r ≠ ra → t.reg r = s.reg r) ∧
      match aluExact i (s.reg ra).toNat (s.reg rb).toNat with
      | some v => (t.reg ra).toNat = v % 256 ∧ t.fl = s.fl
      | none => t.reg ra = s.reg ra ∧ t.fl = compareFlags (s.reg ra) (s.reg rb) ∧
          ((isE t.fl = true ∧ isG t.fl = false ∧ isL t.fl = false ∧ (s.reg ra).toNat = (s.reg rb).toNat) ∨
           (isE t.fl = false ∧ isG t.fl = true ∧ isL t.fl = false ∧ (s.reg rb).toNat < (s.reg ra).toNat) ∨
           (isE t.fl = false ∧ isG t.fl = false ∧ isL t.fl = true ∧ (s.reg ra).toNat < (s.reg rb).toNat))

/- ==== Frames ==== -/

/-- What LDI, ADD, MUL, AND, OR, XOR, NOT, SHL and SHR leave: every register but the one operand 1 selects, FL, every byte of
memory, the ports, and the status unless the step faults (10_state.md R24, 41_alu.md R122). -/
def Obligations.RegisterWritingFormsFrame : Prop :=
  ∀ (a b : Byte) (i : Instr) (s t : State),
    i ∈ [.ldi a b, .add a b, .mul a b, .and a b, .or a b, .xor a b, .not a, .shl a b, .shr a b] →
    exec i s = .next t →
    (∀ r : Reg, regByte r ≠ a → sameReg s t r) ∧ t.fl = s.fl ∧ sameMemory s t ∧ samePorts s t ∧
    (t.status = s.status ∨ t.status.isFault = true)

/-- What PRN, HLT, CMP, JMP, JEQ and JNE leave: every register and every byte of memory; FL but for CMP, the output port but
for PRN, the status but for HLT unless the step faults (10_state.md R24, R28, R33). -/
def Obligations.RegisterKeepingFormsFrame : Prop :=
  ∀ (a b : Byte) (i : Instr) (s t : State),
    i ∈ [.prn a, .hlt, .cmp a b, .jmp a, .jeq a, .jne a] →
    exec i s = .next t →
    (∀ r : Reg, sameReg s t r) ∧ sameMemory s t ∧
    (i ≠ .cmp a b → t.fl = s.fl) ∧
    (i ≠ .prn a → t.output = s.output) ∧
    t.trace = s.trace ∧ t.traceEnabled = s.traceEnabled ∧
    (i ≠ .hlt → t.status = s.status ∨ t.status.isFault = true)

/-- What PUSH leaves: every register but R7, FL, the ports, and every byte of memory but the one at `s.pushAddress`, the
address the meaning stores to; all of memory when the step faults (10_state.md R24, 43_stack.md R141). That the trace port is
unchanged by a PUSH that overflows is DEDUCED: the dump of R162 stands in the recorded value (log entry 12). -/
def Obligations.PushFrame : Prop :=
  ∀ (a : Byte) (s t : State), exec (.push a) s = .next t →
    (∀ r : Reg, r ≠ 7 → sameReg s t r) ∧ t.fl = s.fl ∧ samePorts s t ∧
    (t.status = s.status ∨ t.status.isFault = true) ∧
    (∀ addr : Nat, (addr : Int) ≠ s.pushAddress → t.mem.read addr = s.mem.read addr) ∧
    (t.status.isFault = true → s.status.isFault = false → sameMemory s t ∧ sameReg s t 7)

/-- What POP leaves: every register but the destination and R7, FL, every byte of memory, the ports (10_state.md R24,
43_stack.md R142). -/
def Obligations.PopFrame : Prop :=
  ∀ (a : Byte) (s t : State), exec (.pop a) s = .next t →
    (∀ r : Reg, r ≠ 7 → regByte r ≠ a → sameReg s t r) ∧ t.fl = s.fl ∧ sameMemory s t ∧ samePorts s t ∧
    (t.status = s.status ∨ t.status.isFault = true)

/- ==== Rules of the whole machine ==== -/

/-- 10_state.md R28: a step that changes FL ran CMP. -/
def Obligations.OnlyCmpWritesFlags : Prop :=
  ∀ s t : State, step s = .next t → t.fl ≠ s.fl → s.pc ≤ 253 ∧ s.mem.read s.pc = opcodeMap .cmp

/-- 20_memory.md R53, 90_conflicts.md C2: a step that changes a byte of memory ran PUSH, and the byte is the one at
`s.pushAddress`; no step raises AddressFault but for its fetch. -/
def Obligations.OnlyPushWritesMemory : Prop :=
  ∀ s t : State, step s = .next t →
    (∀ addr : Nat, t.mem.read addr ≠ s.mem.read addr →
      s.pc ≤ 253 ∧ s.mem.read s.pc = opcodeMap .push ∧ (addr : Int) = s.pushAddress) ∧
    (∀ a, t.status = .halted (.addressFault a) → 253 < s.pc)

/-- 10_state.md R33: the output port only grows, by one byte per executed PRN, the value of the register it names. -/
def Obligations.OutputGrowsOnlyByPrn : Prop :=
  ∀ s t : State, step s = .next t →
    t.output = s.output ∨
    (s.mem.read s.pc = 0b01000111#8 ∧
      ∃ r : Reg, s.mem.read (s.pc + 1) = regByte r ∧ t.output = s.output ++ [s.reg r])

/-- 20_memory.md R62: a fetch at the address a PUSH has stored to sees the pushed byte at once. -/
def Obligations.FetchSeesPushedByte : Prop :=
  ∀ (r : Reg) (s t u : State), exec (.push (regByte r)) s = .next t → s.status = .running → t.status = .running →
    u.mem = t.mem → (u.pc : Int) = s.pushAddress → u.pc ≤ 253 →
    ∃ w, u.fetch = .ok w ∧ w.op = t.reg r

/-- The invariant holds in the state after reset. -/
def Obligations.ResetMeetsInvariant : Prop := State.reset.Inv

/-- The invariant holds in every state that a launch begins in, whatever the program. -/
def Obligations.BootMeetsInvariant : Prop :=
  ∀ (p : RegReset) (tr : Bool) (src : LoadSource) (t : State), boot p tr src = .next t → t.Inv

/-- Every step keeps the invariant: memory stays canonical and inside its 256 bytes, `pc` stays at most 256 (10_state.md
R26), FL stays its reset value or one of CMP's three (R27, R28), R4 and R7 stay set (R39). -/
def Obligations.StepKeepsInvariant : Prop :=
  ∀ s t : State, s.Inv → step s = .next t → t.Inv

/-- With no register unset, as under `REG_RESET = zero`, none ever is, and no step raises UnsetRegisterRead (10_state.md R39,
decision D3, log entry 3). -/
def Obligations.NoUnsetReadWhenAllSet : Prop :=
  ∀ s t : State, s.allSet → step s = .next t → t.allSet ∧ ∀ r, t.status ≠ .halted (.unsetRegisterRead r)

/-- 70_reset_and_hazards.md R185: over any run in which R4 holds at least `k` before each step, the bytes below `k` stay as
they were: the loaded program cannot be overwritten while R4 is not lowered. -/
def Obligations.BytesBelowBoundarySurviveRun : Prop :=
  ∀ (k n : Nat) (s : State), (∀ j < n, k ≤ ((runFor j s).reg 4).toNat) →
    ∀ addr < k, (runFor n s).mem.read addr = s.mem.read addr

/-- 00_scope.md R6, 10_state.md R36: `TRACE_ENABLED` has no effect on what is observed of any run. -/
def Obligations.TracingNeverChangesObservation : Prop :=
  ∀ (n : Nat) (s : State) (tr : Bool) (records : List TraceRecord),
    (runFor n { s with traceEnabled := tr, trace := records }).observe = (runFor n s).observe

/-- 43_stack.md R143: with `x[4]` = k unchanged, `x[7] - k` PUSHes succeed, and the next one raises StackOverflow with SP = k
and exit status 3. That the dump stands in the recorded value is DEDUCED (log entry 12). -/
def Obligations.PushesSucceedDownToBoundaryThenOverflow : Prop :=
  ∀ (r : Reg) (s : State) (n : Nat), s.status = .running →
    s.isUnset spIndex = false → s.isUnset boundIndex = false → s.isUnset r = false →
    (s.reg 4).toNat + n ≤ (s.reg 7).toNat →
    ∃ t, runInstrs (List.replicate n (.push (regByte r))) s = .next t ∧ t.status = .running ∧
      (t.reg 7).toNat = (s.reg 7).toNat - n ∧ t.reg 4 = s.reg 4 ∧
      ((s.reg 4).toNat + n = (s.reg 7).toNat →
        ∃ u, exec (.push (regByte r)) t = .next u ∧ u.status = .halted (.stackOverflow (s.reg 4) t.traceRecord) ∧
          u.status.exitStatus = some 3)

/-- 43_stack.md R144, with its provisos: PUSH Rr, then balanced PUSH/POP pairs, then POP Rr' gives `x[r']` the value that
`x[r]` had, and SP its value, when neither is R7, SP was at most 0xF4, no pair pops into R7 and nothing faulted. -/
def Obligations.StackRoundTripAcrossBalancedPairs : Prop :=
  ∀ (r r' : Reg) (l : List Instr) (s t : State), r ≠ 7 → r' ≠ 7 → (s.reg 7).toNat ≤ 0xF4 → Balanced l →
    s.status = .running → runInstrs (.push (regByte r) :: (l ++ [.pop (regByte r')])) s = .next t → t.status = .running →
    t.reg r' = s.reg r ∧ t.reg 7 = s.reg 7
end

