-- ==== Sys2Proof/Laws/Decode.lean ====
section
/-! SUPPORT. The fields of the default opcode bytes, and what the dispatch lookup finds. -/

namespace Sys2Proof

/-- The fields of each row's opcode byte say what 30_encoding.md R77 asks of them. -/
theorem opFields_opcodeMap (m : Mnemonic) :
    (opFields (opcodeMap m)).setsPc = m.handlerSetsPc ∧ (opFields (opcodeMap m)).operandCount = m.operandBytes := by
  cases m <;> decide

/-- The list of mnemonics is complete. -/
theorem Mnemonic.mem_all (m : Mnemonic) : m ∈ Mnemonic.all := by
  cases m <;> decide

/-- A mnemonic found for a byte has that byte. -/
theorem registered_some {map : OpcodeMap} {op : Byte} {m : Mnemonic} (h : registered map op = some m) : map m = op := by
  simpa using List.find?_some h

/-- No mnemonic is found for a byte exactly when none has it. -/
theorem registered_none {map : OpcodeMap} {op : Byte} : registered map op = none ↔ ∀ m, map m ≠ op := by
  simp [registered, List.find?_eq_none, Mnemonic.mem_all]

end Sys2Proof
end

