-- ==== Sys2Proof/Laws/Load.lean ====
section
/-! SUPPORT. What the load contract's functions do with a line: the text before the comment, the trim, the binary reading, and
the first bad line of a program. -/

namespace Sys2Proof.Machine

/-- A predicate that holds of all of a list is dropped with it. -/
theorem dropWhile_append_all {p : Char → Bool} {l : List Char} (h : ∀ c ∈ l, p c = true) (r : List Char) :
    (l ++ r).dropWhile p = r.dropWhile p := by
  induction l with
  | nil => rfl
  | cons c l ih =>
    rw [List.cons_append, List.dropWhile_cons_of_pos (h c (by simp)), ih fun x hx => h x (by simp [hx])]

/-- Nothing is dropped from a list whose first element does not meet the predicate. -/
theorem dropWhile_head {p : Char → Bool} {l : List Char} (h : ∀ c, l.head? = some c → p c = false) :
    l.dropWhile p = l := by
  cases l with
  | nil => rfl
  | cons c l => rw [List.dropWhile_cons_of_neg (by simp [h c rfl])]

/-- White space alone trims to nothing. -/
theorem trimLine_blank {l : List Char} (h : ∀ c ∈ l, c.isWhitespace = true) : trimLine l = [] := by
  have hd : l.dropWhile Char.isWhitespace = [] := by simpa using dropWhile_append_all h []
  rw [trimLine, hd]
  rfl

/-- `trim` leaves the text between two runs of white space. -/
theorem trimLine_text {before text after : List Char} (hb : ∀ c ∈ before, c.isWhitespace = true)
    (ha : ∀ c ∈ after, c.isWhitespace = true) (hh : ∀ c, text.head? = some c → c.isWhitespace = false)
    (hl : ∀ c, text.getLast? = some c → c.isWhitespace = false) : trimLine (before ++ text ++ after) = text := by
  cases text with
  | nil => exact trimLine_blank (by simpa [or_imp, forall_and] using And.intro hb ha)
  | cons c cs =>
    have hd : ((c :: cs) ++ after).dropWhile Char.isWhitespace = (c :: cs) ++ after :=
      dropWhile_head fun d hd => hh d (by simpa using hd)
    have hr : ((c :: cs).reverse).dropWhile Char.isWhitespace = (c :: cs).reverse :=
      dropWhile_head fun d hd => hl d (by rwa [List.head?_reverse] at hd)
    rw [trimLine, List.append_assoc, dropWhile_append_all hb, hd, List.reverse_append,
      dropWhile_append_all (fun d hd => ha d (List.mem_reverse.1 hd)), hr, List.reverse_reverse]

/-- White space is no number sign. -/
theorem not_hash_of_blank {l : List Char} (h : ∀ c ∈ l, c.isWhitespace = true) : '#' ∉ l := fun hm =>
  absurd (h _ hm) (by decide)

/-- The text of a line in its parts is what the trim of the part before the first `#` leaves. -/
theorem LineParts.trim {before text after comment : List Char} (h : LineParts before text after comment) :
    trimLine ((before ++ text ++ after ++ comment).takeWhile (· ≠ '#')) = text := by
  have hn : ∀ c ∈ before ++ text ++ after, decide (c ≠ '#') = true := by
    intro c hc
    simp only [List.mem_append] at hc
    have h1 := not_hash_of_blank h.blank_before
    have h2 := not_hash_of_blank h.blank_after
    have h3 := h.text_hash
    rcases hc with (hc | hc) | hc <;> simpa using fun e : c = '#' => by simp_all
  have hc : comment.takeWhile (fun c => decide (c ≠ '#')) = [] := by
    rcases h.comment_hash with rfl | hc
    · rfl
    · cases comment with
      | nil => rfl
      | cons c cs => simp_all
  rw [List.takeWhile_append_of_pos hn, hc, List.append_nil]
  exact trimLine_text h.blank_before h.blank_after h.text_head h.text_last

/-- A row of digits reads as its binary value, with what was read before it weighted above. -/
theorem parseBase2_digits {l : List Char} (h : ∀ c ∈ l, c = '0' ∨ c = '1') (acc : Nat) :
    parseBase2 acc l = some (acc * 2 ^ l.length + binaryValue l) := by
  induction l generalizing acc with
  | nil => simp [parseBase2, binaryValue]
  | cons c l ih =>
    have ih := ih fun x hx => h x (by simp [hx])
    rcases h c (by simp) with rfl | rfl
    · simp [parseBase2, binaryValue, ih, Nat.pow_succ]
      ring
    · simp [parseBase2, binaryValue, ih, Nat.pow_succ]
      ring

/-- Any other character makes a row no literal. -/
theorem parseBase2_none {l : List Char} (h : ∃ c ∈ l, c ≠ '0' ∧ c ≠ '1') (acc : Nat) : parseBase2 acc l = none := by
  induction l generalizing acc with
  | nil => simp at h
  | cons c l ih =>
    obtain ⟨d, hd, h0, h1⟩ := h
    rcases List.mem_cons.1 hd with rfl | hd
    · simp [parseBase2, h0, h1]
    · simp [parseBase2, ih ⟨d, hd, h0, h1⟩]

/-- What a line in its parts reads as, by its text. -/
theorem LineParts.read {before text after comment : List Char} (h : LineParts before text after comment) :
    readLine (before ++ text ++ after ++ comment) =
      if text = [] then .blank
      else if ∃ c ∈ text, c ≠ '0' ∧ c ≠ '1' then .notLiteral
      else if binaryValue text < 256 then .literal (BitVec.ofNat 8 (binaryValue text)) else .notLiteral := by
  rw [readLine, h.trim]
  cases text with
  | nil => rfl
  | cons c cs =>
    by_cases hb : ∃ d ∈ c :: cs, d ≠ '0' ∧ d ≠ '1'
    · rw [if_neg (by simp), if_pos hb]
      simp only [parseBase2_none hb]
    · rw [if_neg (by simp), if_neg hb]
      have hd : ∀ d ∈ c :: cs, d = '0' ∨ d = '1' := fun d hd => by
        by_contra hx
        exact hb ⟨d, hd, by simpa [not_or] using hx⟩
      simp only [parseBase2_digits hd, Nat.zero_mul, Nat.zero_add]

/-- A program is bad at its first line that is no literal, by that line's number. -/
theorem programOfLines_bad {good rest : List (List Char)} {line : List Char} (n : Nat)
    (hg : ∀ l ∈ good, readLine l ≠ .notLiteral) (hl : readLine line = .notLiteral) :
    programOfLines n (good ++ line :: rest) = .error (.badLine (n + good.length)) := by
  induction good generalizing n with
  | nil => simp [programOfLines, hl]
  | cons l good ih =>
    have ih := ih (n + 1) fun x hx => hg x (by simp [hx])
    have h1 := hg l (by simp)
    cases hr : readLine l with
    | blank => simp [programOfLines, hr, ih]; omega
    | literal v => simp [programOfLines, hr, ih, Except.map]; omega
    | notLiteral => exact absurd hr h1

end Sys2Proof.Machine
end

