-- ==== Sys2Proof/Laws/Memory.lean ====
section
/-! SUPPORT. The laws of memory: a read after a write, and that every operation keeps the canonical form. -/

namespace Sys2Proof.Machine

@[simp] theorem Memory.read_nil (a : Nat) : Memory.read [] a = unlistedByte := rfl

/-- Reading after taking an address off the list. -/
theorem Memory.read_erase (m : Memory) (a b : Nat) :
    (m.erase a).read b = if b = a then unlistedByte else m.read b := by
  induction m with
  | nil => simp [Memory.erase]
  | cons c rest ih =>
    obtain ⟨d, w⟩ := c
    simp only [Memory.erase] at ih
    by_cases hd : d = a
    · simp only [Memory.erase, List.filter_cons, hd, bne_self_eq_false, Bool.false_eq_true, if_false, ih, Memory.read]
      split <;> simp_all [eq_comm]
    · have : (d != a) = true := by simpa using hd
      simp only [Memory.erase, List.filter_cons, this, if_true, ih, Memory.read]
      by_cases hb : b = a
      · subst hb; simp [hd]
      · simp [hb]

/-- Reading after listing a byte. -/
theorem Memory.read_place (m : Memory) (a b : Nat) (v : Byte) :
    (m.place a v).read b = if b = a then v else m.read b := by
  induction m with
  | nil => simp only [Memory.place, Memory.read, eq_comm]
  | cons c rest ih =>
    obtain ⟨d, w⟩ := c
    simp only [Memory.place]
    by_cases hb : b = a
    · subst hb
      split
      · simp [Memory.read]
      · split
        · simp [Memory.read]
        · simp only [Memory.read, ih]
          split <;> simp_all
    · split
      · simp [Memory.read, Ne.symm hb]
      · split
        · subst_vars; simp [Memory.read, Ne.symm hb]
        · simp [Memory.read, ih, hb]

/-- A write gives the written byte at its address and leaves every other address alone (20_memory.md R53, R56). -/
@[simp] theorem Memory.read_write (m : Memory) (a b : Nat) (v : Byte) :
    (m.write a v).read b = if b = a then v else m.read b := by
  unfold Memory.write
  split <;> rename_i h
  · rw [Memory.read_erase, h]
  · rw [Memory.read_place]

/-- The cells of a memory after listing a byte. -/
theorem Memory.mem_place {m : Memory} {a : Nat} {v : Byte} {c : Host.Cell} (h : c ∈ m.place a v) :
    c = (a, v) ∨ c ∈ m := by
  induction m with
  | nil => simpa [Memory.place] using h
  | cons d rest ih =>
    obtain ⟨b, w⟩ := d
    simp only [Memory.place] at h
    split at h
    · simpa using h
    · split at h
      · rcases List.mem_cons.1 h with h | h <;> simp [h]
      · rcases List.mem_cons.1 h with h | h
        · simp [h]
        · rcases ih h with h | h <;> simp [h]

/-- Listing a byte keeps the addresses strictly rising. -/
theorem Memory.place_sorted {m : Memory} (a : Nat) (v : Byte) (h : m.Pairwise (fun c d => c.1 < d.1)) :
    (m.place a v).Pairwise (fun c d => c.1 < d.1) := by
  induction m with
  | nil => simp [Memory.place]
  | cons d rest ih =>
    obtain ⟨b, w⟩ := d
    obtain ⟨hb, hr⟩ := List.pairwise_cons.1 h
    simp only [Memory.place]
    split
    · rename_i hab
      refine List.pairwise_cons.2 ⟨fun c hc => ?_, h⟩
      rcases List.mem_cons.1 hc with rfl | hc
      · exact hab
      · exact Nat.lt_trans hab (hb c hc)
    · split
      · subst_vars; exact List.pairwise_cons.2 ⟨hb, hr⟩
      · refine List.pairwise_cons.2 ⟨fun c hc => ?_, ih hr⟩
        rcases Memory.mem_place hc with rfl | hc
        · simp only; omega
        · exact hb c hc

/-- A write inside the address space keeps the canonical form. -/
theorem Memory.wf_write {m : Memory} {a : Nat} (v : Byte) (h : m.wf) (ha : a < Config.memSize) : (m.write a v).wf := by
  unfold Memory.write
  split <;> rename_i hv
  · exact ⟨h.1.filter _, fun c hc => h.2 c (List.mem_filter.1 hc).1⟩
  · refine ⟨Memory.place_sorted a v h.1, fun c hc => ?_⟩
    rcases Memory.mem_place hc with rfl | hc
    · exact ⟨ha, hv⟩
    · exact h.2 c hc

/-- The loader's writes keep the canonical form. -/
theorem Memory.wf_writeList {m : Memory} (a : Nat) (vs : List Byte) (h : m.wf) : (m.writeList a vs).wf := by
  induction vs generalizing m a with
  | nil => exact h
  | cons v vs ih =>
    simp only [Memory.writeList]
    split
    · exact ih (a + 1) (Memory.wf_write v h ‹_›)
    · exact ih (a + 1) h

/-- Reading after the loader's writes: inside the address space, the byte of that address where there is one. -/
theorem Memory.read_writeList (m : Memory) (a b : Nat) (vs : List Byte) (hb : b < Config.memSize) :
    (m.writeList a vs).read b = if a ≤ b ∧ b < a + vs.length then vs.getD (b - a) 0 else m.read b := by
  induction vs generalizing m a with
  | nil => simp [Memory.writeList]
  | cons v vs ih =>
    simp only [Memory.writeList, ih, List.length_cons]
    by_cases hab : a = b
    · subst hab; simp [hb]
    · have hr : (if a < Config.memSize then m.write a v else m).read b = m.read b := by
        split
        · simp [Ne.symm hab]
        · rfl
      rw [hr]
      by_cases h1 : a + 1 ≤ b ∧ b < a + 1 + vs.length
      · rw [if_pos h1, if_pos (by omega), show b - a = (b - (a + 1)) + 1 by omega, List.getD_cons_succ]
      · rw [if_neg h1, if_neg (by omega)]

/-- Reset memory is in canonical form. -/
theorem Memory.wf_nil : Memory.wf [] := ⟨List.Pairwise.nil, fun _ h => absurd h (List.not_mem_nil)⟩

end Sys2Proof.Machine
end

