-- ==== Sys2Proof/Laws/State.lean ====
section
/-! SUPPORT. The fields of a state after each update, so that no proof unfolds a record update; the registers and the
set/unset marks after each; and the pc advance of each row. -/

namespace Sys2Proof.Machine

@[simp] theorem State.setReg_regs (s : State) (r : Reg) (v : Byte) : (s.setReg r v).regs = s.regs.set r v := rfl
@[simp] theorem State.setReg_unset (s : State) (r : Reg) (v : Byte) : (s.setReg r v).unset = s.unset.set r false := rfl
@[simp] theorem State.setReg_pc (s : State) (r : Reg) (v : Byte) : (s.setReg r v).pc = s.pc := rfl
@[simp] theorem State.setReg_fl (s : State) (r : Reg) (v : Byte) : (s.setReg r v).fl = s.fl := rfl
@[simp] theorem State.setReg_mem (s : State) (r : Reg) (v : Byte) : (s.setReg r v).mem = s.mem := rfl
@[simp] theorem State.setReg_status (s : State) (r : Reg) (v : Byte) : (s.setReg r v).status = s.status := rfl
@[simp] theorem State.setReg_output (s : State) (r : Reg) (v : Byte) : (s.setReg r v).output = s.output := rfl
@[simp] theorem State.setReg_traceEnabled (s : State) (r : Reg) (v : Byte) : (s.setReg r v).traceEnabled = s.traceEnabled := rfl
@[simp] theorem State.setReg_trace (s : State) (r : Reg) (v : Byte) : (s.setReg r v).trace = s.trace := rfl

@[simp] theorem State.setPc_regs (s : State) (n : Nat) : (s.setPc n).regs = s.regs := rfl
@[simp] theorem State.setPc_unset (s : State) (n : Nat) : (s.setPc n).unset = s.unset := rfl
@[simp] theorem State.setPc_pc (s : State) (n : Nat) : (s.setPc n).pc = n := rfl
@[simp] theorem State.setPc_fl (s : State) (n : Nat) : (s.setPc n).fl = s.fl := rfl
@[simp] theorem State.setPc_mem (s : State) (n : Nat) : (s.setPc n).mem = s.mem := rfl
@[simp] theorem State.setPc_status (s : State) (n : Nat) : (s.setPc n).status = s.status := rfl
@[simp] theorem State.setPc_output (s : State) (n : Nat) : (s.setPc n).output = s.output := rfl
@[simp] theorem State.setPc_traceEnabled (s : State) (n : Nat) : (s.setPc n).traceEnabled = s.traceEnabled := rfl
@[simp] theorem State.setPc_trace (s : State) (n : Nat) : (s.setPc n).trace = s.trace := rfl
@[simp] theorem State.reg_setPc (s : State) (n : Nat) (q : Reg) : (s.setPc n).reg q = s.reg q := rfl
@[simp] theorem State.isUnset_setPc (s : State) (n : Nat) (q : Reg) : (s.setPc n).isUnset q = s.isUnset q := rfl

@[simp] theorem State.setFl_regs (s : State) (v : Byte) : (s.setFl v).regs = s.regs := rfl
@[simp] theorem State.setFl_unset (s : State) (v : Byte) : (s.setFl v).unset = s.unset := rfl
@[simp] theorem State.setFl_pc (s : State) (v : Byte) : (s.setFl v).pc = s.pc := rfl
@[simp] theorem State.setFl_fl (s : State) (v : Byte) : (s.setFl v).fl = v := rfl
@[simp] theorem State.setFl_mem (s : State) (v : Byte) : (s.setFl v).mem = s.mem := rfl
@[simp] theorem State.setFl_status (s : State) (v : Byte) : (s.setFl v).status = s.status := rfl
@[simp] theorem State.setFl_output (s : State) (v : Byte) : (s.setFl v).output = s.output := rfl
@[simp] theorem State.setFl_traceEnabled (s : State) (v : Byte) : (s.setFl v).traceEnabled = s.traceEnabled := rfl
@[simp] theorem State.setFl_trace (s : State) (v : Byte) : (s.setFl v).trace = s.trace := rfl
@[simp] theorem State.reg_setFl (s : State) (v : Byte) (q : Reg) : (s.setFl v).reg q = s.reg q := rfl
@[simp] theorem State.isUnset_setFl (s : State) (v : Byte) (q : Reg) : (s.setFl v).isUnset q = s.isUnset q := rfl

@[simp] theorem State.emitOut_regs (s : State) (v : Byte) : (s.emitOut v).regs = s.regs := rfl
@[simp] theorem State.emitOut_unset (s : State) (v : Byte) : (s.emitOut v).unset = s.unset := rfl
@[simp] theorem State.emitOut_pc (s : State) (v : Byte) : (s.emitOut v).pc = s.pc := rfl
@[simp] theorem State.emitOut_fl (s : State) (v : Byte) : (s.emitOut v).fl = s.fl := rfl
@[simp] theorem State.emitOut_mem (s : State) (v : Byte) : (s.emitOut v).mem = s.mem := rfl
@[simp] theorem State.emitOut_status (s : State) (v : Byte) : (s.emitOut v).status = s.status := rfl
@[simp] theorem State.emitOut_output (s : State) (v : Byte) : (s.emitOut v).output = s.output ++ [v] := rfl
@[simp] theorem State.emitOut_traceEnabled (s : State) (v : Byte) : (s.emitOut v).traceEnabled = s.traceEnabled := rfl
@[simp] theorem State.emitOut_trace (s : State) (v : Byte) : (s.emitOut v).trace = s.trace := rfl
@[simp] theorem State.reg_emitOut (s : State) (v : Byte) (q : Reg) : (s.emitOut v).reg q = s.reg q := rfl
@[simp] theorem State.isUnset_emitOut (s : State) (v : Byte) (q : Reg) : (s.emitOut v).isUnset q = s.isUnset q := rfl

@[simp] theorem State.setMem_regs (s : State) (m : Memory) : (s.setMem m).regs = s.regs := rfl
@[simp] theorem State.setMem_unset (s : State) (m : Memory) : (s.setMem m).unset = s.unset := rfl
@[simp] theorem State.setMem_pc (s : State) (m : Memory) : (s.setMem m).pc = s.pc := rfl
@[simp] theorem State.setMem_fl (s : State) (m : Memory) : (s.setMem m).fl = s.fl := rfl
@[simp] theorem State.setMem_mem (s : State) (m : Memory) : (s.setMem m).mem = m := rfl
@[simp] theorem State.setMem_status (s : State) (m : Memory) : (s.setMem m).status = s.status := rfl
@[simp] theorem State.setMem_output (s : State) (m : Memory) : (s.setMem m).output = s.output := rfl
@[simp] theorem State.setMem_traceEnabled (s : State) (m : Memory) : (s.setMem m).traceEnabled = s.traceEnabled := rfl
@[simp] theorem State.setMem_trace (s : State) (m : Memory) : (s.setMem m).trace = s.trace := rfl
@[simp] theorem State.reg_setMem (s : State) (m : Memory) (q : Reg) : (s.setMem m).reg q = s.reg q := rfl
@[simp] theorem State.isUnset_setMem (s : State) (m : Memory) (q : Reg) : (s.setMem m).isUnset q = s.isUnset q := rfl

@[simp] theorem State.emitTrace_regs (s : State) : (s.emitTrace).regs = s.regs := rfl
@[simp] theorem State.emitTrace_unset (s : State) : (s.emitTrace).unset = s.unset := rfl
@[simp] theorem State.emitTrace_pc (s : State) : (s.emitTrace).pc = s.pc := rfl
@[simp] theorem State.emitTrace_fl (s : State) : (s.emitTrace).fl = s.fl := rfl
@[simp] theorem State.emitTrace_mem (s : State) : (s.emitTrace).mem = s.mem := rfl
@[simp] theorem State.emitTrace_status (s : State) : (s.emitTrace).status = s.status := rfl
@[simp] theorem State.emitTrace_output (s : State) : (s.emitTrace).output = s.output := rfl
@[simp] theorem State.emitTrace_traceEnabled (s : State) : (s.emitTrace).traceEnabled = s.traceEnabled := rfl
@[simp] theorem State.emitTrace_trace (s : State) : (s.emitTrace).trace = if s.traceEnabled then s.trace ++ [s.traceRecord] else s.trace := rfl
@[simp] theorem State.reg_emitTrace (s : State) (q : Reg) : (s.emitTrace).reg q = s.reg q := rfl
@[simp] theorem State.isUnset_emitTrace (s : State) (q : Reg) : (s.emitTrace).isUnset q = s.isUnset q := rfl

@[simp] theorem State.halt_regs (s : State) (c : HaltCause) : (s.halt c).regs = s.regs := rfl
@[simp] theorem State.halt_unset (s : State) (c : HaltCause) : (s.halt c).unset = s.unset := rfl
@[simp] theorem State.halt_pc (s : State) (c : HaltCause) : (s.halt c).pc = s.pc := rfl
@[simp] theorem State.halt_fl (s : State) (c : HaltCause) : (s.halt c).fl = s.fl := rfl
@[simp] theorem State.halt_mem (s : State) (c : HaltCause) : (s.halt c).mem = s.mem := rfl
@[simp] theorem State.halt_status (s : State) (c : HaltCause) : (s.halt c).status = .halted c := rfl
@[simp] theorem State.halt_output (s : State) (c : HaltCause) : (s.halt c).output = s.output := rfl
@[simp] theorem State.halt_traceEnabled (s : State) (c : HaltCause) : (s.halt c).traceEnabled = s.traceEnabled := rfl
@[simp] theorem State.halt_trace (s : State) (c : HaltCause) : (s.halt c).trace = s.trace := rfl
@[simp] theorem State.reg_halt (s : State) (c : HaltCause) (q : Reg) : (s.halt c).reg q = s.reg q := rfl
@[simp] theorem State.isUnset_halt (s : State) (c : HaltCause) (q : Reg) : (s.halt c).isUnset q = s.isUnset q := rfl

@[simp] theorem State.raise_regs (s : State) (c : HaltCause) : (s.raise c).regs = s.regs := rfl
@[simp] theorem State.raise_unset (s : State) (c : HaltCause) : (s.raise c).unset = s.unset := rfl
@[simp] theorem State.raise_pc (s : State) (c : HaltCause) : (s.raise c).pc = s.pc := rfl
@[simp] theorem State.raise_fl (s : State) (c : HaltCause) : (s.raise c).fl = s.fl := rfl
@[simp] theorem State.raise_mem (s : State) (c : HaltCause) : (s.raise c).mem = s.mem := rfl
@[simp] theorem State.raise_status (s : State) (c : HaltCause) : (s.raise c).status = .halted c := rfl
@[simp] theorem State.raise_output (s : State) (c : HaltCause) : (s.raise c).output = s.output := rfl
@[simp] theorem State.raise_traceEnabled (s : State) (c : HaltCause) : (s.raise c).traceEnabled = s.traceEnabled := rfl
@[simp] theorem State.raise_trace (s : State) (c : HaltCause) : (s.raise c).trace = s.trace := rfl
@[simp] theorem State.reg_raise (s : State) (c : HaltCause) (q : Reg) : (s.raise c).reg q = s.reg q := rfl
@[simp] theorem State.isUnset_raise (s : State) (c : HaltCause) (q : Reg) : (s.raise c).isUnset q = s.isUnset q := rfl

@[simp] theorem State.advance_regs (s : State) (op : Byte) : (s.advance op).regs = s.regs := rfl
@[simp] theorem State.advance_unset (s : State) (op : Byte) : (s.advance op).unset = s.unset := rfl
@[simp] theorem State.advance_pc (s : State) (op : Byte) : (s.advance op).pc = if (opFields op).setsPc then s.pc else s.pc + 1 + (opFields op).operandCount := rfl
@[simp] theorem State.advance_fl (s : State) (op : Byte) : (s.advance op).fl = s.fl := rfl
@[simp] theorem State.advance_mem (s : State) (op : Byte) : (s.advance op).mem = s.mem := rfl
@[simp] theorem State.advance_status (s : State) (op : Byte) : (s.advance op).status = s.status := rfl
@[simp] theorem State.advance_output (s : State) (op : Byte) : (s.advance op).output = s.output := rfl
@[simp] theorem State.advance_traceEnabled (s : State) (op : Byte) : (s.advance op).traceEnabled = s.traceEnabled := rfl
@[simp] theorem State.advance_trace (s : State) (op : Byte) : (s.advance op).trace = s.trace := rfl
@[simp] theorem State.reg_advance (s : State) (op : Byte) (q : Reg) : (s.advance op).reg q = s.reg q := rfl
@[simp] theorem State.isUnset_advance (s : State) (op : Byte) (q : Reg) : (s.advance op).isUnset q = s.isUnset q := rfl

/-- Reading a register after writing one. -/
@[simp] theorem State.reg_setReg (s : State) (r q : Reg) (v : Byte) :
    (s.setReg r v).reg q = if r = q then v else s.reg q := by
  simp [State.reg, State.setReg, Vector.getElem_set, Fin.ext_iff]

/-- A written register is set; the others keep their mark. -/
@[simp] theorem State.isUnset_setReg (s : State) (r q : Reg) (v : Byte) :
    (s.setReg r v).isUnset q = if r = q then false else s.isUnset q := by
  simp [State.isUnset, State.setReg, Vector.getElem_set, Fin.ext_iff]

/-- SP after the saturating increment, and the other registers. -/
@[simp] theorem State.reg_incrementSp (s : State) (q : Reg) :
    s.incrementSp.reg q = if spIndex = q ∧ (s.reg spIndex).toNat < stackTop.toNat
      then BitVec.ofNat 8 ((s.reg spIndex).toNat + 1) else s.reg q := by
  unfold State.incrementSp
  by_cases h : (s.reg spIndex).toNat < stackTop.toNat
  · simp [h]
  · simp [h]

/-- The saturating increment keeps every set register set. -/
@[simp] theorem State.isUnset_incrementSp (s : State) (q : Reg) :
    s.incrementSp.isUnset q = if spIndex = q ∧ (s.reg spIndex).toNat < stackTop.toNat then false else s.isUnset q := by
  unfold State.incrementSp
  by_cases h : (s.reg spIndex).toNat < stackTop.toNat
  · simp [h]
  · simp [h]

@[simp] theorem State.incrementSp_pc (s : State) : s.incrementSp.pc = s.pc := by unfold State.incrementSp; split <;> rfl
@[simp] theorem State.incrementSp_fl (s : State) : s.incrementSp.fl = s.fl := by unfold State.incrementSp; split <;> rfl
@[simp] theorem State.incrementSp_mem (s : State) : s.incrementSp.mem = s.mem := by unfold State.incrementSp; split <;> rfl
@[simp] theorem State.incrementSp_status (s : State) : s.incrementSp.status = s.status := by unfold State.incrementSp; split <;> rfl
@[simp] theorem State.incrementSp_output (s : State) : s.incrementSp.output = s.output := by unfold State.incrementSp; split <;> rfl
@[simp] theorem State.incrementSp_traceEnabled (s : State) : s.incrementSp.traceEnabled = s.traceEnabled := by unfold State.incrementSp; split <;> rfl
@[simp] theorem State.incrementSp_trace (s : State) : s.incrementSp.trace = s.trace := by unfold State.incrementSp; split <;> rfl

/-- The traced registers and memory do not depend on the trace port. -/
@[simp] theorem State.traceRecord_emitTrace (s : State) : s.emitTrace.traceRecord = s.traceRecord := rfl

/-- Emitting a trace record leaves what is observed. -/
@[simp] theorem State.observe_emitTrace (s : State) : s.emitTrace.observe = s.observe := rfl

/-- Two states that agree on every field are equal. -/
theorem State.ext_fields {s t : State} (h1 : s.regs = t.regs) (h2 : s.unset = t.unset) (h3 : s.pc = t.pc) (h4 : s.fl = t.fl)
    (h5 : s.mem = t.mem) (h6 : s.status = t.status) (h7 : s.output = t.output) (h8 : s.traceEnabled = t.traceEnabled)
    (h9 : s.trace = t.trace) : s = t := by
  cases s; cases t; simp_all

/-- The `pc` after the advance of a row. -/
theorem State.advance_pc_row (s : State) (m : Mnemonic) :
    (s.advance (opcodeMap m)).pc = if m.handlerSetsPc then s.pc else s.pc + 1 + m.operandBytes := by
  simp [opFields_opcodeMap]

end Sys2Proof.Machine
end

