-- ==== Sys2Proof/Laws/Ops.lean ====
section
/-! SUPPORT. One lemma per shared operation that says everything it can do, for the proofs over instructions to cite. -/

namespace Sys2Proof.Machine

/-- An instruction's end is always a next state: the handler's with the pc advanced, or the fault. -/
theorem settle_cases {m : Mnemonic} {s t : State} {x : Except HaltCause State} (h : settle m s x = .next t) :
    (∃ u, x = .ok u ∧ t = u.advance (opcodeMap m)) ∨ (∃ c, x = .error c ∧ t = s.raise c) := by
  cases x with
  | ok u => exact .inl ⟨u, rfl, by simpa [settle] using h.symm⟩
  | error c => exact .inr ⟨c, rfl, by simpa [settle] using h.symm⟩

@[simp] theorem settle_ok (m : Mnemonic) (s u : State) : settle m s (.ok u) = .next (u.advance (opcodeMap m)) := rfl

@[simp] theorem settle_error (m : Mnemonic) (s : State) (c : HaltCause) : settle m s (.error c) = .next (s.raise c) := rfl

/-- Every dispatched instruction ends its step: no meaning answers a fault of the interface or a refusal. -/
theorem settle_answers (m : Mnemonic) (s : State) (x : Except HaltCause State) : ∃ t, settle m s x = .next t := by
  cases x <;> exact ⟨_, rfl⟩

/-- A register-index byte selects its register, or is the byte of a RegisterIndexFault. -/
theorem regIndex_ok {b : Byte} {r : Reg} : regIndex b = .ok r ↔ b = regByte r := by
  revert b r; decide

theorem regIndex_error {b : Byte} {c : HaltCause} :
    regIndex b = .error c ↔ 7 < b.toNat ∧ c = .registerIndexFault b := by
  unfold regIndex
  split
  · exact ⟨nofun, fun h => absurd h.1 (by omega)⟩
  · exact ⟨fun h => ⟨by omega, (Except.error.inj h).symm⟩, fun h => by rw [h.2]⟩

@[simp] theorem regIndex_regByte (r : Reg) : regIndex (regByte r) = .ok r := regIndex_ok.2 rfl

theorem regByte_inj {r q : Reg} : regByte r = regByte q ↔ r = q := by
  revert r q; decide

/-- Every byte selects a register or is above 7. -/
theorem regByte_or_high (b : Byte) : (∃ r, b = regByte r) ∨ 7 < b.toNat := by
  by_cases h : b.toNat < 8
  · exact .inl ⟨⟨b.toNat, h⟩, regIndex_ok.1 (by simp [regIndex, h])⟩
  · exact .inr (by omega)

/-- A byte above 7 used as a register index faults (40_execution_loop.md R96). -/
theorem regIndex_high {b : Byte} (h : 7 < b.toNat) : regIndex b = .error (.registerIndexFault b) :=
  regIndex_error.2 ⟨h, rfl⟩

theorem readReg_ok {s : State} {r : Reg} {v : Byte} : s.readReg r = .ok v ↔ s.isUnset r = false ∧ v = s.reg r := by
  unfold State.readReg
  split
  · exact ⟨nofun, fun h => by simp_all⟩
  · exact ⟨fun h => ⟨by simp_all, (Except.ok.inj h).symm⟩, fun h => by rw [h.2]⟩

theorem readReg_error {s : State} {r : Reg} {c : HaltCause} :
    s.readReg r = .error c ↔ s.isUnset r = true ∧ c = .unsetRegisterRead r := by
  unfold State.readReg
  split
  · exact ⟨fun h => ⟨by assumption, (Except.error.inj h).symm⟩, fun h => by rw [h.2]⟩
  · exact ⟨nofun, fun h => absurd h.1 (by assumption)⟩

/-- A read of a set register. -/
@[simp] theorem readReg_set {s : State} {r : Reg} (h : s.isUnset r = false) : s.readReg r = .ok (s.reg r) :=
  readReg_ok.2 ⟨h, rfl⟩

/-- A read of an unset register. -/
@[simp] theorem readReg_unset {s : State} {r : Reg} (h : s.isUnset r = true) :
    s.readReg r = .error (.unsetRegisterRead r) := readReg_error.2 ⟨h, rfl⟩

/-- The address space: 20_memory.md R50. -/
theorem inMemory_iff {a : Int} : inMemory a = true ↔ 0 ≤ a ∧ a < 256 := by
  have : (Config.memSize : Int) = 256 := rfl
  rw [inMemory, this]
  simp

theorem memRead_ok {s : State} {a : Int} {v : Byte} :
    s.memRead a = .ok v ↔ (0 ≤ a ∧ a < 256) ∧ v = s.mem.read a.toNat := by
  unfold State.memRead
  split
  · exact ⟨fun h => ⟨inMemory_iff.1 ‹_›, (Except.ok.inj h).symm⟩, fun h => by rw [h.2]⟩
  · exact ⟨nofun, fun h => absurd (inMemory_iff.2 h.1) ‹_›⟩

theorem memRead_error {s : State} {a : Int} {c : HaltCause} :
    s.memRead a = .error c ↔ ¬(0 ≤ a ∧ a < 256) ∧ c = .addressFault a := by
  unfold State.memRead
  split
  · exact ⟨nofun, fun h => absurd (inMemory_iff.1 ‹_›) h.1⟩
  · exact ⟨fun h => ⟨fun k => absurd (inMemory_iff.2 k) ‹_›, (Except.error.inj h).symm⟩, fun h => by rw [h.2]⟩

theorem memWrite_ok {s t : State} {a : Int} {v : Byte} :
    s.memWrite a v = .ok t ↔ (0 ≤ a ∧ a < 256) ∧ t = s.setMem (s.mem.write a.toNat v) := by
  unfold State.memWrite
  split
  · exact ⟨fun h => ⟨inMemory_iff.1 ‹_›, (Except.ok.inj h).symm⟩, fun h => by rw [h.2]⟩
  · exact ⟨nofun, fun h => absurd (inMemory_iff.2 h.1) ‹_›⟩

theorem memWrite_error {s : State} {a : Int} {v : Byte} {c : HaltCause} :
    s.memWrite a v = .error c ↔ ¬(0 ≤ a ∧ a < 256) ∧ c = .addressFault a := by
  unfold State.memWrite
  split
  · exact ⟨nofun, fun h => absurd (inMemory_iff.1 ‹_›) h.1⟩
  · exact ⟨fun h => ⟨fun k => absurd (inMemory_iff.2 k) ‹_›, (Except.error.inj h).symm⟩, fun h => by rw [h.2]⟩

/-- Sequencing two handlers that both return. -/
theorem bind_ok {α β : Type} {x : Except HaltCause α} {f : α → Except HaltCause β} {b : β} :
    (x >>= f) = .ok b ↔ ∃ a, x = .ok a ∧ f a = .ok b := by
  cases x <;> simp [bind, Except.bind]

/-- Sequencing raises the first fault, or the second. -/
theorem bind_error {α β : Type} {x : Except HaltCause α} {f : α → Except HaltCause β} {c : HaltCause} :
    (x >>= f) = .error c ↔ x = .error c ∨ ∃ a, x = .ok a ∧ f a = .error c := by
  cases x <;> simp [bind, Except.bind]

@[simp] theorem ok_bind {α β : Type} (a : α) (f : α → Except HaltCause β) : (Except.ok a >>= f) = f a := rfl

@[simp] theorem error_bind {α β : Type} (c : HaltCause) (f : α → Except HaltCause β) :
    ((Except.error c : Except HaltCause α) >>= f) = .error c := rfl

@[simp] theorem pure_ok {α : Type} (a : α) : (pure a : Except HaltCause α) = .ok a := rfl

/-- What a two-register ALU handler does when it returns. -/
theorem aluTwo_ok {f : Byte → Byte → Byte} {a b : Byte} {s t : State} (h : aluTwo f a b s = .ok t) :
    ∃ ra rb, a = regByte ra ∧ b = regByte rb ∧ s.isUnset ra = false ∧ s.isUnset rb = false ∧
      t = s.setReg ra (f (s.reg ra) (s.reg rb)) := by
  simp only [aluTwo, bind_ok, regIndex_ok, readReg_ok, pure_ok, Except.ok.injEq] at h
  obtain ⟨ra, ha, rb, hb, x, ⟨hra, rfl⟩, y, ⟨hrb, rfl⟩, rfl⟩ := h
  exact ⟨ra, rb, ha, hb, hra, hrb, rfl⟩

/-- What NOT's handler does when it returns. -/
theorem aluOne_ok {f : Byte → Byte} {a : Byte} {s t : State} (h : aluOne f a s = .ok t) :
    ∃ ra, a = regByte ra ∧ s.isUnset ra = false ∧ t = s.setReg ra (f (s.reg ra)) := by
  simp only [aluOne, bind_ok, regIndex_ok, readReg_ok, pure_ok, Except.ok.injEq] at h
  obtain ⟨ra, ha, x, ⟨hra, rfl⟩, rfl⟩ := h
  exact ⟨ra, ha, hra, rfl⟩

/-- What CMP's handler does when it returns. -/
theorem aluCompare_ok {f : Byte → Byte → Byte} {a b : Byte} {s t : State} (h : aluCompare f a b s = .ok t) :
    ∃ ra rb, a = regByte ra ∧ b = regByte rb ∧ s.isUnset ra = false ∧ s.isUnset rb = false ∧
      t = s.setFl (f (s.reg ra) (s.reg rb)) := by
  simp only [aluCompare, bind_ok, regIndex_ok, readReg_ok, pure_ok, Except.ok.injEq] at h
  obtain ⟨ra, ha, rb, hb, x, ⟨hra, rfl⟩, y, ⟨hrb, rfl⟩, rfl⟩ := h
  exact ⟨ra, rb, ha, hb, hra, hrb, rfl⟩

/-- What LDI's handler does when it returns. -/
theorem ldiHandler_ok {a i : Byte} {s t : State} (h : ldiHandler a i s = .ok t) :
    ∃ ra, a = regByte ra ∧ t = s.setReg ra i := by
  simp only [ldiHandler, bind_ok, regIndex_ok, pure_ok, Except.ok.injEq] at h
  obtain ⟨ra, ha, rfl⟩ := h
  exact ⟨ra, ha, rfl⟩

/-- What PRN's handler does when it returns. -/
theorem prnHandler_ok {a : Byte} {s t : State} (h : prnHandler a s = .ok t) :
    ∃ ra, a = regByte ra ∧ s.isUnset ra = false ∧ t = s.emitOut (s.reg ra) := by
  simp only [prnHandler, bind_ok, regIndex_ok, readReg_ok, pure_ok, Except.ok.injEq] at h
  obtain ⟨ra, ha, x, ⟨hra, rfl⟩, rfl⟩ := h
  exact ⟨ra, ha, hra, rfl⟩

/-- What JMP's handler does when it returns. -/
theorem jmpHandler_ok {a : Byte} {s t : State} (h : jmpHandler a s = .ok t) :
    ∃ ra, a = regByte ra ∧ s.isUnset ra = false ∧ t = s.setPc (s.reg ra).toNat := by
  simp only [jmpHandler, bind_ok, regIndex_ok, readReg_ok, pure_ok, Except.ok.injEq] at h
  obtain ⟨ra, ha, x, ⟨hra, rfl⟩, rfl⟩ := h
  exact ⟨ra, ha, hra, rfl⟩

/-- What JEQ's or JNE's handler does when it returns. -/
theorem branchHandler_ok {taken : Bool} {a : Byte} {s t : State} (h : branchHandler taken a s = .ok t) :
    ∃ ra, a = regByte ra ∧ ((taken = true ∧ s.isUnset ra = false ∧ t = s.setPc (s.reg ra).toNat) ∨
      (taken = false ∧ t = s.setPc (s.pc + 2))) := by
  simp only [branchHandler, bind_ok, regIndex_ok] at h
  obtain ⟨ra, ha, h⟩ := h
  refine ⟨ra, ha, ?_⟩
  split at h
  · simp only [bind_ok, readReg_ok, pure_ok, Except.ok.injEq] at h
    obtain ⟨x, ⟨hra, rfl⟩, rfl⟩ := h
    exact .inl ⟨‹_›, hra, rfl⟩
  · rename_i hn
    simp only [pure_ok, Except.ok.injEq] at h
    exact .inr ⟨by simpa using hn, h.symm⟩

/-- The two roles by number (10_state.md R22, R23). -/
theorem spIndex_eq : spIndex = 7 := rfl

theorem boundIndex_eq : boundIndex = 4 := rfl

/-- When PUSH overflows, on the register values (43_stack.md R141). -/
theorem pushOverflows_iff {s : State} : s.pushOverflows = true ↔ (s.reg 7).toNat < (s.reg 4).toNat + 1 := by
  rw [show s.pushOverflows = decide (((s.reg 7).toNat : Int) - 1 < ((s.reg 4).toNat : Int)) from rfl, decide_eq_true_iff]
  omega

theorem pushOverflows_false_iff {s : State} : s.pushOverflows = false ↔ (s.reg 4).toNat + 1 ≤ (s.reg 7).toNat := by
  rw [Bool.eq_false_iff, Ne, pushOverflows_iff]
  omega

/-- The decremented SP, where PUSH does not overflow. -/
theorem pushAddress_range {s : State} (h : s.pushOverflows = false) :
    0 ≤ s.pushAddress ∧ s.pushAddress < 255 ∧ s.pushAddress = ((s.reg spIndex).toNat : Int) - 1 ∧
      ((s.reg boundIndex).toNat : Int) ≤ s.pushAddress := by
  have h7 := (s.reg spIndex).isLt
  have h4 := (s.reg boundIndex).isLt
  have h' : ¬ s.pushAddress < ((s.reg boundIndex).toNat : Int) := of_decide_eq_false h
  simp only [State.pushAddress] at *
  exact ⟨by omega, by omega, trivial, by omega⟩

/-- What PUSH's handler does when it returns: 43_stack.md R141. -/
theorem pushHandler_ok {a : Byte} {s t : State} (h : pushHandler a s = .ok t) :
    ∃ ra, a = regByte ra ∧ s.isUnset spIndex = false ∧ s.isUnset boundIndex = false ∧ s.isUnset ra = false ∧
      s.pushOverflows = false ∧ t = (s.setReg spIndex (BitVec.ofInt 8 s.pushAddress)).setMem
        (s.mem.write s.pushAddress.toNat ((s.setReg spIndex (BitVec.ofInt 8 s.pushAddress)).reg ra)) := by
  simp only [pushHandler, bind_ok, regIndex_ok, readReg_ok] at h
  obtain ⟨ra, ha, sp, ⟨h7, rfl⟩, x, ⟨h4, rfl⟩, y, ⟨hra, rfl⟩, h⟩ := h
  refine ⟨ra, ha, h7, h4, hra, ?_⟩
  split at h
  · exact absurd h nofun
  · rename_i hn
    simp only [bind_ok, readReg_ok, memWrite_ok] at h
    obtain ⟨v, ⟨-, rfl⟩, -, rfl⟩ := h
    exact ⟨by simpa using hn, rfl⟩

/-- POP's read is always in range: 43_stack.md R142. -/
theorem popAddress_read (s : State) : s.memRead s.popAddress = .ok (s.mem.read (s.reg spIndex).toNat) := by
  have h7 := (s.reg spIndex).isLt
  refine memRead_ok.2 ⟨?_, ?_⟩
  · simp only [State.popAddress]; omega
  · simp [State.popAddress]

/-- What POP's handler does when it returns: 43_stack.md R142. -/
theorem popHandler_ok {a : Byte} {s t : State} (h : popHandler a s = .ok t) :
    ∃ ra, a = regByte ra ∧ s.isUnset spIndex = false ∧
      t = (s.setReg ra (s.mem.read (s.reg spIndex).toNat)).incrementSp := by
  simp only [popHandler, popAddress_read, bind_ok, regIndex_ok, readReg_ok, pure_ok, Except.ok.injEq] at h
  obtain ⟨ra, ha, sp, ⟨h7, -⟩, v, rfl, w, -, rfl⟩ := h
  exact ⟨ra, ha, h7, rfl⟩

/-- The faults a handler can raise over its register operands `ops`, but for PUSH's overflow. -/
inductive OperandFault (ops : List Byte) (s : State) : HaltCause → Prop where
  | index (b : Byte) (hm : b ∈ ops) (hb : 7 < b.toNat) : OperandFault ops s (.registerIndexFault b)
  | unset (r : Reg) (hr : s.isUnset r = true) : OperandFault ops s (.unsetRegisterRead r)

theorem regIndex_fault {b : Byte} {c : HaltCause} {ops : List Byte} (s : State) (hm : b ∈ ops)
    (h : regIndex b = .error c) : OperandFault ops s c := by
  obtain ⟨hb, rfl⟩ := regIndex_error.1 h
  exact .index b hm hb

theorem readReg_fault {s : State} {r : Reg} {c : HaltCause} (ops : List Byte) (h : s.readReg r = .error c) :
    OperandFault ops s c := by
  obtain ⟨hr, rfl⟩ := readReg_error.1 h
  exact .unset r hr

theorem aluTwo_error {f : Byte → Byte → Byte} {a b : Byte} {s : State} {c : HaltCause} (h : aluTwo f a b s = .error c) :
    OperandFault [a, b] s c := by
  simp only [aluTwo, bind_error, pure_ok, reduceCtorEq, and_false, exists_false, or_false] at h
  rcases h with h | ⟨_, -, h | ⟨_, -, h | ⟨_, -, h⟩⟩⟩
  · exact regIndex_fault s (by simp) h
  · exact regIndex_fault s (by simp) h
  · exact readReg_fault _ h
  · exact readReg_fault _ h

theorem aluCompare_error {f : Byte → Byte → Byte} {a b : Byte} {s : State} {c : HaltCause}
    (h : aluCompare f a b s = .error c) : OperandFault [a, b] s c := by
  simp only [aluCompare, bind_error, pure_ok, reduceCtorEq, and_false, exists_false, or_false] at h
  rcases h with h | ⟨_, -, h | ⟨_, -, h | ⟨_, -, h⟩⟩⟩
  · exact regIndex_fault s (by simp) h
  · exact regIndex_fault s (by simp) h
  · exact readReg_fault _ h
  · exact readReg_fault _ h

theorem aluOne_error {f : Byte → Byte} {a : Byte} {s : State} {c : HaltCause} (h : aluOne f a s = .error c) :
    OperandFault [a] s c := by
  simp only [aluOne, bind_error, pure_ok, reduceCtorEq, and_false, exists_false, or_false] at h
  rcases h with h | ⟨_, -, h⟩
  · exact regIndex_fault s (by simp) h
  · exact readReg_fault _ h

theorem ldiHandler_error {a i : Byte} {s : State} {c : HaltCause} (h : ldiHandler a i s = .error c) :
    OperandFault [a] s c := by
  simp only [ldiHandler, bind_error, pure_ok, reduceCtorEq, and_false, exists_false, or_false] at h
  exact regIndex_fault s (by simp) h

theorem prnHandler_error {a : Byte} {s : State} {c : HaltCause} (h : prnHandler a s = .error c) :
    OperandFault [a] s c := by
  simp only [prnHandler, bind_error, pure_ok, reduceCtorEq, and_false, exists_false, or_false] at h
  rcases h with h | ⟨_, -, h⟩
  · exact regIndex_fault s (by simp) h
  · exact readReg_fault _ h

theorem jmpHandler_error {a : Byte} {s : State} {c : HaltCause} (h : jmpHandler a s = .error c) :
    OperandFault [a] s c := by
  simp only [jmpHandler, bind_error, pure_ok, reduceCtorEq, and_false, exists_false, or_false] at h
  rcases h with h | ⟨_, -, h⟩
  · exact regIndex_fault s (by simp) h
  · exact readReg_fault _ h

theorem branchHandler_error {taken : Bool} {a : Byte} {s : State} {c : HaltCause}
    (h : branchHandler taken a s = .error c) : OperandFault [a] s c := by
  simp only [branchHandler, bind_error] at h
  rcases h with h | ⟨_, -, h⟩
  · exact regIndex_fault s (by simp) h
  · split at h
    · simp only [bind_error, pure_ok, reduceCtorEq, and_false, exists_false, or_false] at h
      exact readReg_fault _ h
    · exact nomatch h

theorem popHandler_error {a : Byte} {s : State} {c : HaltCause} (h : popHandler a s = .error c) :
    OperandFault [a] s c := by
  simp only [popHandler, popAddress_read, bind_error, pure_ok, reduceCtorEq, and_false, exists_false, or_false,
    false_or] at h
  rcases h with h | ⟨ra, -, h | ⟨_, -, v, -, h⟩⟩
  · exact regIndex_fault s (by simp) h
  · exact readReg_fault _ h
  · obtain ⟨hr, rfl⟩ := readReg_error.1 h
    rw [State.isUnset_setReg] at hr
    split at hr
    · exact nomatch hr
    · exact .unset _ hr

theorem pushHandler_error {a : Byte} {s : State} {c : HaltCause} (h : pushHandler a s = .error c) :
    OperandFault [a] s c ∨ (s.pushOverflows = true ∧ c = .stackOverflow (s.reg spIndex) s.traceRecord) := by
  simp only [pushHandler, bind_error] at h
  rcases h with h | ⟨ra, -, h | ⟨sp, h7, h | ⟨_, -, h | ⟨_, hra, h⟩⟩⟩⟩
  · exact .inl (regIndex_fault s (by simp) h)
  · exact .inl (readReg_fault _ h)
  · exact .inl (readReg_fault _ h)
  · exact .inl (readReg_fault _ h)
  · obtain ⟨-, rfl⟩ := readReg_ok.1 h7
    split at h
    · exact .inr ⟨by assumption, (Except.error.inj h).symm⟩
    · rename_i hn
      obtain ⟨h0, h1, -, -⟩ := pushAddress_range (by simpa using hn : s.pushOverflows = false)
      simp only [bind_error] at h
      rcases h with h | ⟨_, -, h⟩
      · obtain ⟨hr, -⟩ := readReg_error.1 h
        obtain ⟨hra, -⟩ := readReg_ok.1 hra
        rw [State.isUnset_setReg] at hr
        simp [hra] at hr
      · exact absurd ⟨h0, by omega⟩ (memWrite_error.1 h).1

/-- Everything that one instruction can do to a state: its own effect, with the `pc` that follows, or a fault. -/
inductive ExecResult (s : State) : Instr → State → Prop where
  | ldi (r : Reg) (v : Byte) : ExecResult s (.ldi (regByte r) v) ((s.setReg r v).setPc (s.pc + 3))
  | prn (r : Reg) (hr : s.isUnset r = false) :
      ExecResult s (.prn (regByte r)) ((s.emitOut (s.reg r)).setPc (s.pc + 2))
  | hlt : ExecResult s .hlt ((s.halt .normal).setPc (s.pc + 1))
  | push (r : Reg) (h7 : s.isUnset spIndex = false) (h4 : s.isUnset boundIndex = false) (hr : s.isUnset r = false)
      (ho : s.pushOverflows = false) :
      ExecResult s (.push (regByte r)) (((s.setReg spIndex (BitVec.ofInt 8 s.pushAddress)).setMem
        (s.mem.write s.pushAddress.toNat ((s.setReg spIndex (BitVec.ofInt 8 s.pushAddress)).reg r))).setPc (s.pc + 2))
  | pop (r : Reg) (h7 : s.isUnset spIndex = false) :
      ExecResult s (.pop (regByte r))
        ((s.setReg r (s.mem.read (s.reg spIndex).toNat)).incrementSp.setPc (s.pc + 2))
  | jmp (r : Reg) (hr : s.isUnset r = false) : ExecResult s (.jmp (regByte r)) (s.setPc (s.reg r).toNat)
  | jeqTaken (r : Reg) (he : isE s.fl = true) (hr : s.isUnset r = false) :
      ExecResult s (.jeq (regByte r)) (s.setPc (s.reg r).toNat)
  | jeqNot (r : Reg) (he : isE s.fl = false) : ExecResult s (.jeq (regByte r)) (s.setPc (s.pc + 2))
  | jneTaken (r : Reg) (he : isE s.fl = false) (hr : s.isUnset r = false) :
      ExecResult s (.jne (regByte r)) (s.setPc (s.reg r).toNat)
  | jneNot (r : Reg) (he : isE s.fl = true) : ExecResult s (.jne (regByte r)) (s.setPc (s.pc + 2))
  | two (i : Instr) (f : Byte → Byte → Byte) (ra rb : Reg) (hra : s.isUnset ra = false) (hrb : s.isUnset rb = false)
      (hi : (i, f) ∈ [(.add (regByte ra) (regByte rb), aluAdd), (.mul (regByte ra) (regByte rb), aluMul),
        (.and (regByte ra) (regByte rb), aluAnd), (.or (regByte ra) (regByte rb), aluOr),
        (.xor (regByte ra) (regByte rb), aluXor), (.shl (regByte ra) (regByte rb), aluShl),
        (.shr (regByte ra) (regByte rb), aluShr)]) :
      ExecResult s i ((s.setReg ra (f (s.reg ra) (s.reg rb))).setPc (s.pc + 3))
  | not (r : Reg) (hr : s.isUnset r = false) :
      ExecResult s (.not (regByte r)) ((s.setReg r (aluNot (s.reg r))).setPc (s.pc + 2))
  | cmp (ra rb : Reg) (hra : s.isUnset ra = false) (hrb : s.isUnset rb = false) :
      ExecResult s (.cmp (regByte ra) (regByte rb)) ((s.setFl (compareFlags (s.reg ra) (s.reg rb))).setPc (s.pc + 3))
  | operand (i : Instr) (c : HaltCause) (hc : OperandFault i.regOperands s c) : ExecResult s i (s.raise c)
  | overflow (a : Byte) (ho : s.pushOverflows = true) :
      ExecResult s (.push a) (s.raise (.stackOverflow (s.reg spIndex) s.traceRecord))

/-- The advance of a row whose opcode leaves the `pc` to the loop. -/
theorem advance_loop {m : Mnemonic} (s : State) (h : m.handlerSetsPc = false) :
    s.advance (opcodeMap m) = s.setPc (s.pc + 1 + m.operandBytes) := by
  simp [State.advance, State.setPc, opFields_opcodeMap, h]

/-- The advance of a row whose opcode has the PC-already-set bit. -/
theorem advance_handler {m : Mnemonic} (s : State) (h : m.handlerSetsPc = true) : s.advance (opcodeMap m) = s := by
  simp [State.advance, opFields_opcodeMap, h]

/-- The end of a two-register ALU instruction. -/
theorem two_result {i : Instr} {f : Byte → Byte → Byte} {a b : Byte} {m : Mnemonic} {s t : State}
    (hm : m.handlerSetsPc = false) (hn : m.operandBytes = 2) (hops : i.regOperands = [a, b])
    (hi : ∀ ra rb, a = regByte ra → b = regByte rb →
      (i, f) ∈ [(.add (regByte ra) (regByte rb), aluAdd), (.mul (regByte ra) (regByte rb), aluMul),
        (.and (regByte ra) (regByte rb), aluAnd), (.or (regByte ra) (regByte rb), aluOr),
        (.xor (regByte ra) (regByte rb), aluXor), (.shl (regByte ra) (regByte rb), aluShl),
        (.shr (regByte ra) (regByte rb), aluShr)])
    (h : settle m s (aluTwo f a b s) = .next t) : ExecResult s i t := by
  rcases settle_cases h with ⟨u, hu, rfl⟩ | ⟨c, hc, rfl⟩
  · obtain ⟨ra, rb, ha, hb, hra, hrb, rfl⟩ := aluTwo_ok hu
    rw [advance_loop _ hm, hn]
    exact .two i f ra rb hra hrb (hi ra rb ha hb)
  · exact .operand i c (hops ▸ aluTwo_error hc)

/-- One instruction does one of the things of `ExecResult`, and nothing else. -/
theorem exec_result {i : Instr} {s t : State} (h : exec i s = .next t) : ExecResult s i t := by
  cases i with
  | ldi a v =>
    rcases settle_cases h with ⟨u, hu, rfl⟩ | ⟨c, hc, rfl⟩
    · obtain ⟨r, rfl, rfl⟩ := ldiHandler_ok hu
      rw [advance_loop _ rfl]; exact .ldi r v
    · exact .operand _ c (ldiHandler_error hc)
  | prn a =>
    rcases settle_cases h with ⟨u, hu, rfl⟩ | ⟨c, hc, rfl⟩
    · obtain ⟨r, rfl, hr, rfl⟩ := prnHandler_ok hu
      rw [advance_loop _ rfl]; exact .prn r hr
    · exact .operand _ c (prnHandler_error hc)
  | hlt =>
    rcases settle_cases (show settle .hlt s (hltHandler s) = .next t from h) with ⟨u, hu, rfl⟩ | ⟨c, hc, rfl⟩
    · obtain rfl := Except.ok.inj hu
      rw [advance_loop _ rfl]; exact .hlt
    · exact nomatch hc
  | push a =>
    rcases settle_cases h with ⟨u, hu, rfl⟩ | ⟨c, hc, rfl⟩
    · obtain ⟨r, rfl, h7, h4, hr, ho, rfl⟩ := pushHandler_ok hu
      rw [advance_loop _ rfl]; exact .push r h7 h4 hr ho
    · rcases pushHandler_error hc with hf | ⟨ho, rfl⟩
      · exact .operand _ c hf
      · exact .overflow a ho
  | pop a =>
    rcases settle_cases h with ⟨u, hu, rfl⟩ | ⟨c, hc, rfl⟩
    · obtain ⟨r, rfl, h7, rfl⟩ := popHandler_ok hu
      rw [advance_loop _ rfl, State.incrementSp_pc]
      exact .pop r h7
    · exact .operand _ c (popHandler_error hc)
  | jmp a =>
    rcases settle_cases h with ⟨u, hu, rfl⟩ | ⟨c, hc, rfl⟩
    · obtain ⟨r, rfl, hr, rfl⟩ := jmpHandler_ok hu
      rw [advance_handler _ rfl]; exact .jmp r hr
    · exact .operand _ c (jmpHandler_error hc)
  | jeq a =>
    rcases settle_cases h with ⟨u, hu, rfl⟩ | ⟨c, hc, rfl⟩
    · obtain ⟨r, rfl, ⟨he, hr, rfl⟩ | ⟨he, rfl⟩⟩ := branchHandler_ok hu
      · rw [advance_handler _ rfl]; exact .jeqTaken r he hr
      · rw [advance_handler _ rfl]; exact .jeqNot r he
    · exact .operand _ c (branchHandler_error hc)
  | jne a =>
    rcases settle_cases h with ⟨u, hu, rfl⟩ | ⟨c, hc, rfl⟩
    · obtain ⟨r, rfl, ⟨he, hr, rfl⟩ | ⟨he, rfl⟩⟩ := branchHandler_ok hu
      · rw [advance_handler _ rfl]; exact .jneTaken r (by simpa using he) hr
      · rw [advance_handler _ rfl]; exact .jneNot r (by simpa using he)
    · exact .operand _ c (branchHandler_error hc)
  | add a b => exact two_result rfl rfl rfl (by rintro _ _ rfl rfl; simp) h
  | mul a b => exact two_result rfl rfl rfl (by rintro _ _ rfl rfl; simp) h
  | cmp a b =>
    rcases settle_cases h with ⟨u, hu, rfl⟩ | ⟨c, hc, rfl⟩
    · obtain ⟨ra, rb, rfl, rfl, hra, hrb, rfl⟩ := aluCompare_ok hu
      rw [advance_loop _ rfl]; exact .cmp ra rb hra hrb
    · exact .operand _ c (aluCompare_error hc)
  | and a b => exact two_result rfl rfl rfl (by rintro _ _ rfl rfl; simp) h
  | or a b => exact two_result rfl rfl rfl (by rintro _ _ rfl rfl; simp) h
  | xor a b => exact two_result rfl rfl rfl (by rintro _ _ rfl rfl; simp) h
  | not a =>
    rcases settle_cases h with ⟨u, hu, rfl⟩ | ⟨c, hc, rfl⟩
    · obtain ⟨r, rfl, hr, rfl⟩ := aluOne_ok hu
      rw [advance_loop _ rfl]; exact .not r hr
    · exact .operand _ c (aluOne_error hc)
  | shl a b => exact two_result rfl rfl rfl (by rintro _ _ rfl rfl; simp) h
  | shr a b => exact two_result rfl rfl rfl (by rintro _ _ rfl rfl; simp) h

/-- One instruction always ends its step: nothing that is dispatched is refused. -/
theorem exec_answers (i : Instr) (s : State) : ∃ t, exec i s = .next t := by
  cases i with
  | hlt => exact ⟨_, rfl⟩
  | _ => exact settle_answers _ _ _

/-- The fetch inside memory reads the three bytes. -/
theorem fetch_ok {s : State} {w : Window} :
    s.fetch = .ok w ↔ s.pc ≤ 253 ∧ w = ⟨s.mem.read s.pc, s.mem.read (s.pc + 1), s.mem.read (s.pc + 2)⟩ := by
  simp only [State.fetch, bind_ok, memRead_ok, pure_ok, Except.ok.injEq]
  constructor
  · rintro ⟨_, ⟨_, rfl⟩, _, ⟨_, rfl⟩, _, ⟨h, rfl⟩, rfl⟩
    exact ⟨by omega, rfl⟩
  · rintro ⟨h, rfl⟩
    exact ⟨_, ⟨by omega, rfl⟩, _, ⟨by omega, rfl⟩, _, ⟨by omega, rfl⟩, rfl⟩

/-- The fetch faults at the first address above 255 (40_execution_loop.md R93). -/
theorem fetch_error {s : State} {c : HaltCause} :
    s.fetch = .error c ↔ 253 < s.pc ∧ c = .addressFault (max s.pc 256 : Nat) := by
  simp only [State.fetch, bind_error, memRead_ok, memRead_error, pure_ok, reduceCtorEq, and_false, exists_false,
    or_false]
  constructor
  · rintro (⟨h, rfl⟩ | ⟨_, ⟨h0, rfl⟩, ⟨h, rfl⟩ | ⟨_, ⟨h1, rfl⟩, h, rfl⟩⟩)
    all_goals exact ⟨by omega, by congr 1; omega⟩
  · rintro ⟨h, rfl⟩
    by_cases h0 : 255 < s.pc
    · exact .inl ⟨by omega, by congr 1; omega⟩
    · refine .inr ⟨_, ⟨by omega, rfl⟩, ?_⟩
      by_cases h1 : 254 < s.pc
      · exact .inl ⟨by omega, by congr 1; omega⟩
      · exact .inr ⟨_, ⟨by omega, rfl⟩, by omega, by congr 1; omega⟩

/-- Everything a step can do: 40_execution_loop.md R90. -/
theorem step_cases {s t : State} (h : step s = .next t) :
    s.status = .running ∧
      ((253 < s.pc ∧ t = s.emitTrace.raise (.addressFault (max s.pc 256 : Nat))) ∨
       (s.pc ≤ 253 ∧ registered opcodeMap (s.mem.read s.pc) = none ∧
          t = s.emitTrace.raise (.unknownInstruction (s.mem.read s.pc))) ∨
       (s.pc ≤ 253 ∧ ∃ m, registered opcodeMap (s.mem.read s.pc) = some m ∧
          exec (assemble m (s.mem.read (s.pc + 1)) (s.mem.read (s.pc + 2))) s.emitTrace = .next t)) := by
  unfold step stepWith at h
  split at h
  · cases h
  · rename_i hs
    refine ⟨hs, ?_⟩
    split at h
    · rename_i c hc
      obtain ⟨hp, rfl⟩ := fetch_error.1 hc
      exact .inl ⟨hp, by simpa using h.symm⟩
    · rename_i w hw
      obtain ⟨hp, rfl⟩ := fetch_ok.1 hw
      simp only [State.emitTrace_pc, State.emitTrace_mem] at hp h
      unfold decode decodeWith at h
      simp only at h
      cases hr : registered opcodeMap (s.mem.read s.pc) with
      | none => simp only [hr] at h; exact .inr (.inl ⟨hp, rfl, by simpa using h.symm⟩)
      | some m => simp only [hr] at h; exact .inr (.inr ⟨hp, m, rfl, h⟩)

end Sys2Proof.Machine
end

