-- ==== Sys2Proof/Laws/PerInstr.lean ====
section
/-! SUPPORT. Facts about every instruction as syntax, one lemma per constructor. -/

namespace Sys2Proof.Laws

/-- The encoding is as long as the opcode byte's own field says: 30_encoding.md R70, R75. -/
def EncodeLength.Statement (i : Instr) : Prop := (encode i).length = 1 + (opFields (opcodeMap i.mnemonic)).operandCount

/-- It is enough to count the operand bytes. -/
theorem EncodeLength.of_operands {i : Instr} (h : i.operands.length = i.mnemonic.operandBytes) :
    EncodeLength.Statement i := by
  simp only [EncodeLength.Statement, encode, encodeWith, List.length_cons, h, opFields_opcodeMap]
  omega

theorem EncodeLength.ldi (a i : Byte) : EncodeLength.Statement (.ldi a i) := EncodeLength.of_operands rfl
theorem EncodeLength.prn (a : Byte) : EncodeLength.Statement (.prn a) := EncodeLength.of_operands rfl
theorem EncodeLength.hlt : EncodeLength.Statement .hlt := EncodeLength.of_operands rfl
theorem EncodeLength.push (a : Byte) : EncodeLength.Statement (.push a) := EncodeLength.of_operands rfl
theorem EncodeLength.pop (a : Byte) : EncodeLength.Statement (.pop a) := EncodeLength.of_operands rfl
theorem EncodeLength.jmp (a : Byte) : EncodeLength.Statement (.jmp a) := EncodeLength.of_operands rfl
theorem EncodeLength.jeq (a : Byte) : EncodeLength.Statement (.jeq a) := EncodeLength.of_operands rfl
theorem EncodeLength.jne (a : Byte) : EncodeLength.Statement (.jne a) := EncodeLength.of_operands rfl
theorem EncodeLength.add (a b : Byte) : EncodeLength.Statement (.add a b) := EncodeLength.of_operands rfl
theorem EncodeLength.mul (a b : Byte) : EncodeLength.Statement (.mul a b) := EncodeLength.of_operands rfl
theorem EncodeLength.cmp (a b : Byte) : EncodeLength.Statement (.cmp a b) := EncodeLength.of_operands rfl
theorem EncodeLength.and (a b : Byte) : EncodeLength.Statement (.and a b) := EncodeLength.of_operands rfl
theorem EncodeLength.or (a b : Byte) : EncodeLength.Statement (.or a b) := EncodeLength.of_operands rfl
theorem EncodeLength.xor (a b : Byte) : EncodeLength.Statement (.xor a b) := EncodeLength.of_operands rfl
theorem EncodeLength.not (a : Byte) : EncodeLength.Statement (.not a) := EncodeLength.of_operands rfl
theorem EncodeLength.shl (a b : Byte) : EncodeLength.Statement (.shl a b) := EncodeLength.of_operands rfl
theorem EncodeLength.shr (a b : Byte) : EncodeLength.Statement (.shr a b) := EncodeLength.of_operands rfl

/-- Assembling an instruction's own operand bytes gives it back, whatever the bytes beyond its length
(30_encoding.md R73). -/
def AssembleOperands.Statement (i : Instr) : Prop :=
  ∀ (o1 o2 : Byte) (rest tail : List Byte), i.operands ++ tail = o1 :: o2 :: rest → assemble i.mnemonic o1 o2 = i

theorem AssembleOperands.ldi (a i : Byte) : AssembleOperands.Statement (.ldi a i) := by
  intro _ _ _ _ h; simp_all [Instr.operands, assemble, Instr.mnemonic]
theorem AssembleOperands.prn (a : Byte) : AssembleOperands.Statement (.prn a) := by
  intro _ _ _ _ h; simp_all [Instr.operands, assemble, Instr.mnemonic]
theorem AssembleOperands.hlt : AssembleOperands.Statement .hlt := by
  intro _ _ _ _ _; rfl
theorem AssembleOperands.push (a : Byte) : AssembleOperands.Statement (.push a) := by
  intro _ _ _ _ h; simp_all [Instr.operands, assemble, Instr.mnemonic]
theorem AssembleOperands.pop (a : Byte) : AssembleOperands.Statement (.pop a) := by
  intro _ _ _ _ h; simp_all [Instr.operands, assemble, Instr.mnemonic]
theorem AssembleOperands.jmp (a : Byte) : AssembleOperands.Statement (.jmp a) := by
  intro _ _ _ _ h; simp_all [Instr.operands, assemble, Instr.mnemonic]
theorem AssembleOperands.jeq (a : Byte) : AssembleOperands.Statement (.jeq a) := by
  intro _ _ _ _ h; simp_all [Instr.operands, assemble, Instr.mnemonic]
theorem AssembleOperands.jne (a : Byte) : AssembleOperands.Statement (.jne a) := by
  intro _ _ _ _ h; simp_all [Instr.operands, assemble, Instr.mnemonic]
theorem AssembleOperands.add (a b : Byte) : AssembleOperands.Statement (.add a b) := by
  intro _ _ _ _ h; simp_all [Instr.operands, assemble, Instr.mnemonic]
theorem AssembleOperands.mul (a b : Byte) : AssembleOperands.Statement (.mul a b) := by
  intro _ _ _ _ h; simp_all [Instr.operands, assemble, Instr.mnemonic]
theorem AssembleOperands.cmp (a b : Byte) : AssembleOperands.Statement (.cmp a b) := by
  intro _ _ _ _ h; simp_all [Instr.operands, assemble, Instr.mnemonic]
theorem AssembleOperands.and (a b : Byte) : AssembleOperands.Statement (.and a b) := by
  intro _ _ _ _ h; simp_all [Instr.operands, assemble, Instr.mnemonic]
theorem AssembleOperands.or (a b : Byte) : AssembleOperands.Statement (.or a b) := by
  intro _ _ _ _ h; simp_all [Instr.operands, assemble, Instr.mnemonic]
theorem AssembleOperands.xor (a b : Byte) : AssembleOperands.Statement (.xor a b) := by
  intro _ _ _ _ h; simp_all [Instr.operands, assemble, Instr.mnemonic]
theorem AssembleOperands.not (a : Byte) : AssembleOperands.Statement (.not a) := by
  intro _ _ _ _ h; simp_all [Instr.operands, assemble, Instr.mnemonic]
theorem AssembleOperands.shl (a b : Byte) : AssembleOperands.Statement (.shl a b) := by
  intro _ _ _ _ h; simp_all [Instr.operands, assemble, Instr.mnemonic]
theorem AssembleOperands.shr (a b : Byte) : AssembleOperands.Statement (.shr a b) := by
  intro _ _ _ _ h; simp_all [Instr.operands, assemble, Instr.mnemonic]

end Sys2Proof.Laws
end

