-- ==== Sys2Proof/Tests/Slice0.lean ====
section
/-! SUPPORT. The model's own tests: the expected results are spec/95_test_vectors.md's (cited by row) or the words written out
from the encodings of 30_encoding.md R76; then, for every statement with hypotheses, a state that meets them together. -/

namespace Sys2Proof.Tests

open Sys2Proof.Machine

/-- The next state of an outcome. -/
def answered : Host.Outcome State Fault Refusal → Option State
  | .next t => some t
  | .fault _ => none
  | .refused _ => none

/-- A running machine with these registers and flags, and bytes placed at `pc`. -/
def machine (regs : Vector Byte 8) (pc : Nat) (fl : Byte) (bytes : List Byte) : State :=
  { State.reset with regs := regs, pc := pc, fl := fl, mem := Memory.writeList [] pc bytes }

/-- The state after one step, where there is one, seen through `f`. -/
def after {α : Type} (f : State → α) (s : State) : Option α := (answered (step s)).map f

/- ==== Well-formedness: one ill-formed term for each check ==== -/

theorem test_wellFormed_accepts : Instr.wellFormed (.add 0 7) = true := by decide
theorem test_wellFormed_refuses_ldi : Instr.wellFormed (.ldi 8 1) = false := by decide
theorem test_wellFormed_refuses_one_register : Instr.wellFormed (.push 255) = false := by decide
theorem test_wellFormed_refuses_first : Instr.wellFormed (.cmp 9 0) = false := by decide
theorem test_wellFormed_refuses_second : Instr.wellFormed (.shr 0 8) = false := by decide
theorem test_wellFormed_literal_is_free : Instr.wellFormed (.ldi 7 255) = true := by decide

/- ==== Decoding: every constructor's word, bit by bit from 30_encoding.md R76 (95_test_vectors.md section 2.1) ==== -/

theorem test_decode_ldi : decode ⟨0b10000010#8, 0b00000011#8, 0b11111110#8⟩ = .ok (.ldi 3 254) := by decide
theorem test_decode_prn : decode ⟨0b01000111#8, 0b00000011#8, 0b10000010#8⟩ = .ok (.prn 3) := by decide
theorem test_decode_hlt : decode ⟨0b00000001#8, 0b10000010#8, 0b11111111#8⟩ = .ok .hlt := by decide
theorem test_decode_push : decode ⟨0b01000101#8, 0b00000101#8, 0b00000001#8⟩ = .ok (.push 5) := by decide
theorem test_decode_pop : decode ⟨0b01000110#8, 0b00000110#8, 0b00000001#8⟩ = .ok (.pop 6) := by decide
theorem test_decode_jmp : decode ⟨0b01010100#8, 0b00000010#8, 0b00000001#8⟩ = .ok (.jmp 2) := by decide
theorem test_decode_jeq : decode ⟨0b01010101#8, 0b00000010#8, 0b00000001#8⟩ = .ok (.jeq 2) := by decide
theorem test_decode_jne : decode ⟨0b01010110#8, 0b00000010#8, 0b00000001#8⟩ = .ok (.jne 2) := by decide
theorem test_decode_add : decode ⟨0b10100000#8, 0b00000001#8, 0b00000010#8⟩ = .ok (.add 1 2) := by decide
theorem test_decode_mul : decode ⟨0b10100010#8, 0b00000001#8, 0b00000010#8⟩ = .ok (.mul 1 2) := by decide
theorem test_decode_cmp : decode ⟨0b10100111#8, 0b00000001#8, 0b00000010#8⟩ = .ok (.cmp 1 2) := by decide
theorem test_decode_and : decode ⟨0b10101000#8, 0b00000001#8, 0b00000010#8⟩ = .ok (.and 1 2) := by decide
theorem test_decode_or : decode ⟨0b10101010#8, 0b00000001#8, 0b00000010#8⟩ = .ok (.or 1 2) := by decide
theorem test_decode_xor : decode ⟨0b10101011#8, 0b00000001#8, 0b00000010#8⟩ = .ok (.xor 1 2) := by decide
theorem test_decode_not : decode ⟨0b01101001#8, 0b00000001#8, 0b00001001#8⟩ = .ok (.not 1) := by decide
theorem test_decode_shl : decode ⟨0b10101100#8, 0b00000001#8, 0b00000010#8⟩ = .ok (.shl 1 2) := by decide
theorem test_decode_shr : decode ⟨0b10101101#8, 0b00000001#8, 0b00000010#8⟩ = .ok (.shr 1 2) := by decide

/-- A register byte is used whole, not masked (30_encoding.md R74). -/
theorem test_decode_register_unmasked : decode ⟨0b01000111#8, 0b00001001#8, 0b00000000#8⟩ = .ok (.prn 9) := by decide

/-- IRET, CALL, SUB and a claimed count of 3 are unregistered (95_test_vectors.md section 2.6). -/
theorem test_decode_unregistered :
    decode ⟨0x13#8, 0, 0⟩ = .error (.unknownInstruction 0x13) ∧ decode ⟨0x50#8, 0, 0⟩ = .error (.unknownInstruction 0x50) ∧
    decode ⟨0xA1#8, 0, 0⟩ = .error (.unknownInstruction 0xA1) ∧
    decode ⟨0xC0#8, 0, 0⟩ = .error (.unknownInstruction 0xC0) := by decide

/-- The opcode table's numbering: bit 0 is the lowest bit of the first byte. -/
theorem test_decodeTableWord : decodeTableWord 24 0x080082 = some (.ldi 0 8) ∧ decodeTableWord 8 0x01 = some .hlt := by
  decide

/-- 95_test_vectors.md S8: the fields of the source's three bytes. -/
theorem test_opFields : opFields 0x82#8 = ⟨2, false, false, 2⟩ ∧ opFields 0x47#8 = ⟨1, false, false, 7⟩ ∧
    opFields 0x01#8 = ⟨0, false, false, 1⟩ := by decide

theorem test_encode : encode (.ldi 0 8) = [0x82#8, 0x00#8, 0x08#8] ∧ encode (.prn 0) = [0x47#8, 0x00#8] ∧
    encode .hlt = [0x01#8] := by decide

/- ==== ALU: 95_test_vectors.md section 2.2 ==== -/

theorem test_add_carry_lost : after (fun t => (t.reg 0, t.pc, t.fl))
    (machine #v[0xC8, 0x64, 0, 0, 0, 0, 0, 0xF4] 0 0 [0xA0, 0, 1]) = some (0x2C, 3, 0) := by decide
theorem test_add_names_sp : after (fun t => (t.reg 7, t.reg 1))
    (machine #v[0, 0x0C, 0, 0, 0, 0, 0, 0xF4] 0 0 [0xA0, 7, 1]) = some (0x00, 0x0C) := by decide
theorem test_mul_high_byte_lost : after (fun t => (t.reg 0, t.reg 1))
    (machine #v[0xC8, 2, 0, 0, 0, 0, 0, 0xF4] 0 0 [0xA2, 0, 1]) = some (0x90, 2) := by decide
theorem test_mul_square : after (fun t => t.reg 0)
    (machine #v[0xFF, 0xFF, 0, 0, 0, 0, 0, 0xF4] 0 0 [0xA2, 0, 0]) = some 0x01 := by decide
theorem test_and : after (fun t => t.reg 0) (machine #v[0xF0, 0x3C, 0, 0, 0, 0, 0, 0xF4] 0 0 [0xA8, 0, 1]) = some 0x30 := by
  decide
theorem test_or : after (fun t => t.reg 0) (machine #v[0xF0, 0x3C, 0, 0, 0, 0, 0, 0xF4] 0 0 [0xAA, 0, 1]) = some 0xFC := by
  decide
theorem test_xor : after (fun t => t.reg 0) (machine #v[0xF0, 0x3C, 0, 0, 0, 0, 0, 0xF4] 0 0 [0xAB, 0, 1]) = some 0xCC := by
  decide
theorem test_not_ignores_next_byte : after (fun t => (t.reg 2, t.pc))
    (machine #v[0, 0, 0xF0, 0, 0, 0, 0, 0xF4] 0 0 [0x69, 2, 0x99]) = some (0x0F, 2) := by decide
theorem test_shl_bit_lost : after (fun t => t.reg 0)
    (machine #v[0x81, 1, 0, 0, 0, 0, 0, 0xF4] 0 0 [0xAC, 0, 1]) = some 0x02 := by decide
theorem test_shl_amount_not_masked : after (fun t => t.reg 0)
    (machine #v[0xFF, 255, 0, 0, 0, 0, 0, 0xF4] 0 0 [0xAC, 0, 1]) = some 0x00 := by decide
theorem test_shr_logical : after (fun t => t.reg 0)
    (machine #v[0x80, 7, 0, 0, 0, 0, 0, 0xF4] 0 0 [0xAD, 0, 1]) = some 0x01 := by decide
theorem test_shr_by_width : after (fun t => t.reg 0)
    (machine #v[0x80, 8, 0, 0, 0, 0, 0, 0xF4] 0 0 [0xAD, 0, 1]) = some 0x00 := by decide
theorem test_cmp_clears_old_flag : after (fun t => (t.fl, t.reg 0))
    (machine #v[7, 7, 0, 0, 0, 0, 0, 0xF4] 0 0x04 [0xA7, 0, 1]) = some (0x01, 7) := by decide
theorem test_cmp_unsigned : after (fun t => t.fl)
    (machine #v[0x80, 0x01, 0, 0, 0, 0, 0, 0xF4] 0 0 [0xA7, 0, 1]) = some 0x02 := by decide

/-- `ADD R9,R10`: operand 1 is checked first. -/
theorem test_register_index_first : after (fun t => (t.status, t.pc))
    (machine #v[0, 0, 0, 0, 0, 0, 0, 0xF4] 0 0 [0xA0, 9, 10]) = some (.halted (.registerIndexFault 9), 0) := by decide

/- ==== Data movement: section 2.3 ==== -/

theorem test_ldi_at_253_reaches_256 : after (fun t => (t.reg 0, t.pc, t.status))
    (machine #v[0, 0, 0, 0, 0, 0, 0, 0xF4] 253 0 [0x82, 0, 7]) = some (7, 256, .running) := by decide
theorem test_ldi_above_stack_top : after (fun t => t.reg 7)
    (machine #v[0, 0, 0, 0, 0, 0, 0, 0xF4] 0 0 [0x82, 7, 0xFF]) = some 0xFF := by decide
theorem test_prn_appends : after (fun t => (t.output, t.pc))
    { machine #v[0xFF, 0, 0, 0, 0, 0, 0, 0xF4] 0 0 [0x47, 0] with output := [1] } = some ([1, 0xFF], 2) := by decide
theorem test_hlt_at_5 : after (fun t => (t.pc, t.status, t.status.exitStatus))
    (machine #v[0, 0, 0, 0, 0, 0, 0, 0xF4] 5 0 [0x01]) = some (6, .halted .normal, some 0) := by decide
theorem test_hlt_at_255_fetch_faults : after (fun t => (t.pc, t.status))
    (machine #v[0, 0, 0, 0, 0, 0, 0, 0xF4] 255 0 [0x01]) = some (255, .halted (.addressFault 256)) := by decide

/- ==== Stack: section 2.4 ==== -/

theorem test_push_to_boundary : after (fun t => (t.reg 7, t.mem.read 6, t.pc))
    (machine #v[9, 0, 0, 0, 6, 0, 0, 7] 0 0 [0x45, 0]) = some (6, 9, 2) := by decide
theorem test_push_r7_stores_decremented : after (fun t => (t.reg 7, t.mem.read 0xF3))
    (machine #v[0, 0, 0, 0, 6, 0, 0, 0xF4] 0 0 [0x45, 7]) = some (0xF3, 0xF3) := by decide
theorem test_push_no_wrap_at_zero : after (fun t => (t.reg 7, t.pc, t.status.exitStatus))
    (machine #v[0, 0, 0, 0, 0, 0, 0, 0] 0 0 [0x45, 0]) = some (0, 0, some 3) := by decide
theorem test_push_index_before_overflow : after (fun t => t.status)
    (machine #v[0, 0, 0, 0, 6, 0, 0, 6] 0 0 [0x45, 9]) = some (.halted (.registerIndexFault 9)) := by decide
theorem test_pop_saturates_above_top : after (fun t => (t.reg 1, t.reg 7))
    { machine #v[0, 0, 0, 0, 6, 0, 0, 0xFF] 0 0 [0x46, 1] with mem := [(0, 0x46), (1, 1), (0xFF, 5)] }
      = some (5, 0xFF) := by decide
theorem test_pop_r7_increments_popped : after (fun t => t.reg 7)
    { machine #v[0, 0, 0, 0, 6, 0, 0, 0xF0] 0 0 [0x46, 7] with mem := [(0, 0x46), (1, 7), (0xF0, 0xF3)] }
      = some 0xF4 := by decide

/- ==== Control transfer: section 2.5 ==== -/

theorem test_jmp_exact : after (fun t => t.pc) (machine #v[0, 0, 0, 0x0C, 0, 0, 0, 0xF4] 0 0 [0x54, 3]) = some 0x0C := by
  decide
theorem test_jmp_to_255_taken : after (fun t => (t.pc, t.status))
    (machine #v[0, 0, 0, 0xFF, 0, 0, 0, 0xF4] 0 0 [0x54, 3]) = some (0xFF, .running) := by decide
theorem test_jeq_taken : after (fun t => t.pc)
    (machine #v[0, 0, 0, 0x0C, 0, 0, 0, 0xF4] 0x14 0x01 [0x55, 3]) = some 0x0C := by decide
theorem test_jeq_not_taken_checks_index : after (fun t => (t.pc, t.status))
    (machine #v[0, 0, 0, 0x0C, 0, 0, 0, 0xF4] 0x14 0x00 [0x55, 9]) = some (0x14, .halted (.registerIndexFault 9)) := by
  decide
theorem test_jne_taken : after (fun t => t.pc)
    (machine #v[0, 0, 0, 0x0C, 0, 0, 0, 0xF4] 0x14 0x04 [0x56, 3]) = some 0x0C := by decide
theorem test_jne_falls_through : after (fun t => t.pc)
    (machine #v[0, 0, 0, 0x0C, 0, 0, 0, 0xF4] 0x14 0x01 [0x56, 3]) = some 0x16 := by decide

/- ==== Dispatch and faults: section 2.6 ==== -/

theorem test_unknown_instruction : after (fun t => (t.status, t.pc, t.status.exitStatus)) State.reset
    = some (.halted (.unknownInstruction 0), 0, some 1) := by decide
theorem test_fetch_faults_before_unknown : after (fun t => t.status)
    (machine #v[0, 0, 0, 0, 0, 0, 0, 0xF4] 254 0 [0x00]) = some (.halted (.addressFault 256)) := by decide

/-- 10_state.md R36: a step with tracing on presents the record of its start, absent bytes and unset registers absent. -/
theorem test_trace_record : after (fun t => t.trace)
    { machine #v[0, 0, 0, 0, 0, 0, 0, 0xF4] 254 0 [0x01, 0x02] with
      traceEnabled := true, unset := #v[true, false, false, false, false, false, false, false] }
    = some [{ pc := 254, m0 := some 1, m1 := some 2, m2 := none,
              regs := #v[none, some 0, some 0, some 0, some 0, some 0, some 0, some 0xF4] }] := by decide

/-- 95_test_vectors.md P5: under `unwritten_faults` its first PUSH R0 reads an unset register. -/
theorem test_unset_read : after (fun t => t.status)
    { State.constructed .unwrittenFaults false with mem := [(0, 0x45)] } = some (.halted (.unsetRegisterRead 0)) := by decide

/-- A host test word runs as the first instruction after reset. -/
theorem test_withFetchWord : after (fun t => (t.reg 0, t.pc)) (State.reset.withFetchWord 24 0x080082) = some (8, 3) := by
  decide

/- ==== Load: 95_test_vectors.md S7 ==== -/

/-- S7's three lines: a literal with a comment, a blank line, a literal. -/
def linesS7 : List (List Char) :=
  [['1', '0', '0', '0', '0', '0', '1', '0', ' ', '#', ' ', 'c'], [], ['0', '0', '0', '0', '0', '0', '0', '1']]

theorem test_load_S7 : (answered (boot .zero false (.lines linesS7))).map (fun t => (t.mem, t.reg 4, t.status))
    = some ([(0, 0x82), (1, 0x01)], 2, .running) := by decide
/- 70_reset_and_hazards.md R181: the plain line of eight digits, and the empty line. -/
theorem test_load_plain_lines : readLine ['1', '0', '0', '0', '0', '0', '1', '0'] = .literal 0x82 ∧ readLine [] = .blank := by
  decide
theorem test_load_bad_line : programOfLines 0 [['1'], ['1', '2']] = .error (.badLine 1) := by decide
theorem test_load_literal_over_255 : readLine ['1', '0', '0', '0', '0', '0', '0', '0', '0'] = .notLiteral := by decide
theorem test_load_unreadable : (answered (boot .zero false .unreadable)).map (fun t => (t.status, t.output))
    = some (.halted .ioError, []) := by decide

/- ==== Witnesses: states and operands that meet the hypotheses of the statements ==== -/

/-- A running machine with all of R0 to R7 distinct and the boundary at 4. -/
def lab (pc : Nat) (fl : Byte) (bytes : List Byte) : State := machine #v[1, 2, 3, 0x0C, 4, 5, 6, 0xF4] pc fl bytes

/-- The same with R0, R1, R2, R3, R5 and R6 unset. -/
def unsetLab (bytes : List Byte) : State :=
  { lab 0 0 bytes with unset := #v[true, true, true, true, false, true, true, false] }

theorem witness_EncodedInstructionDecodesToItself :
    encode (.add 1 2) ++ [] = [0xA0#8, 1#8, 2#8] ∧ encode .hlt ++ [9#8, 9#8] = [0x01#8, 9#8, 9#8] ∧
    encode (.push 255) ++ [9#8] = [0x45#8, 255#8, 9#8] := by decide
theorem witness_DecodedInstructionEncodesToWindow : decode ⟨0x46#8, 1#8, 9#8⟩ = .ok (.pop 1) := by decide
theorem witness_AdmissibleOpcodeMapRoundTrips :
    opcodeMap.admissible = true ∧ encodeWith opcodeMap (.jmp 3) ++ [9#8] = [0x54#8, 3#8, 9#8] := by decide
theorem witness_CanonicalMemoriesReadingAlikeAreEqual :
    Memory.wf [(0, 0x82#8), (255, 1#8)] ∧ Memory.read [(0, 0x82#8), (255, 1#8)] 255 = 1#8 := by decide
theorem witness_OpcodeMapMeetsFieldConstraints : opcodeMap .jne = opcodeMap .jne := rfl
theorem witness_LoadPlacesProgramAndItsLength :
    programOfLines 0 linesS7 = .ok [0x82#8, 0x01#8] ∧ [0x82#8, 0x01#8].length ≤ 255 := by decide
theorem witness_LoadPlacesProgramAndItsLength_longest :
    programOfLines 0 (List.replicate 255 ['1']) = .ok (List.replicate 255 1#8) ∧ (List.replicate 255 1#8).length ≤ 255 := by
  decide +kernel
theorem witness_LaunchOutsideLoadContractRefused_badLine : programOfLines 0 [['2']] = .error (.badLine 0) := by decide
theorem witness_LaunchOutsideLoadContractRefused_firstBadLine :
    (∀ l ∈ linesS7, readLine l ≠ .notLiteral) ∧ readLine ['0', '2'] = .notLiteral ∧ linesS7.length = 3 := by decide
theorem witness_BinaryLineReadsAsItsByte : LineParts [] [] [] [] ∧ LineParts [' ', '\t'] [] [' '] ['#', ' ', 'c'] := by
  refine ⟨⟨?_, ?_, ?_, ?_, ?_, ?_⟩, ⟨?_, ?_, ?_, ?_, ?_, ?_⟩⟩ <;> simp
theorem witness_LineTextDecidesLiteral :
    LineParts [] ['1', ' ', '0'] [] [] ∧ LineParts [' '] ['1', '0', '0', '0', '0', '0', '0', '0', '0'] [' '] ['#'] ∧
    binaryValue ['1', '0', '0', '0', '0', '0', '0', '0', '0'] = 256 ∧
    binaryValue ['1', '1', '1', '1', '1', '1', '1', '1'] = 255 := by
  refine ⟨⟨?_, ?_, ?_, ?_, ?_, ?_⟩, ⟨?_, ?_, ?_, ?_, ?_, ?_⟩, by decide, by decide⟩ <;> simp
theorem witness_LaunchOutsideLoadContractRefused_tooLong :
    programOfLines 0 (List.replicate 256 ['1']) = .ok (List.replicate 256 1#8) ∧ 255 < (List.replicate 256 1#8).length := by
  decide +kernel
theorem witness_HaltedMachineHasNoStep : ({ State.reset with status := .halted .ioError } : State).status = .halted .ioError :=
  rfl
theorem witness_RunningMachineAlwaysSteps : State.reset.status = .running := rfl
theorem witness_StepRunsDecodedInstruction :
    (lab 253 0 [0xA0, 0, 1]).status = .running ∧ (lab 253 0 [0xA0, 0, 1]).pc ≤ 253 ∧
    decode ⟨(lab 253 0 [0xA0, 0, 1]).mem.read 253, (lab 253 0 [0xA0, 0, 1]).mem.read 254,
      (lab 253 0 [0xA0, 0, 1]).mem.read 255⟩ = .ok (.add 0 1) := by decide
theorem witness_FetchBeyondMemoryHalts :
    (lab 254 0 []).status = .running ∧ 254 ≤ (lab 254 0 []).pc ∧ 254 ≤ (lab 255 0 []).pc ∧ 254 ≤ (lab 256 0 []).pc := by
  decide
theorem witness_UnregisteredOpcodeHalts :
    State.reset.status = .running ∧ State.reset.pc ≤ 253 ∧ (∀ m ∈ Mnemonic.all, opcodeMap m ≠ State.reset.mem.read 0) ∧
    after (fun t => t.status) State.reset = some (.halted (.unknownInstruction 0)) := by decide
theorem witness_RegisterOperandAboveSevenHalts :
    Instr.regOperands (.add 7 8) = [7, 8] ∧ [7#8, 8#8].find? (fun o => decide (7 < o.toNat)) = some 8#8 ∧
    [8#8, 255#8].find? (fun o => decide (7 < o.toNat)) = some 8#8 := by decide
theorem witness_UnsetRegisterReadHalts :
    Instr.wellFormed (.push 0) = true ∧ (readOrder (.push 0) (unsetLab [])).find? (unsetLab []).isUnset = some 0 ∧
    (readOrder (.add 4 1) (unsetLab [])).find? (unsetLab []).isUnset = some 1 ∧
    (readOrder (.jeq 3) { unsetLab [] with fl := 0x01#8 }).find? (unsetLab []).isUnset = some 3 := by decide
theorem witness_FaultsArePrecise :
    ∃ t, step (lab 0 0 [0x47, 8]) = .next t ∧ t.status = .halted (.registerIndexFault 8) := ⟨_, rfl, rfl⟩
theorem witness_OnlyHltHaltsNormally :
    ∃ t, step (lab 253 0 [0x01]) = .next t ∧ (lab 253 0 [0x01]).pc ≤ 253 ∧ t.status = .halted .normal :=
  ⟨_, rfl, by decide, rfl⟩
theorem witness_PcAdvanceFollowsOpcodeFields :
    ∃ t, (lab 9 0 []).status = .running ∧ exec .hlt (lab 9 0 []) = .next t ∧ t.status.isFault = false ∧
      (opFields (opcodeMap .hlt)).setsPc = false := ⟨_, rfl, rfl, rfl, by decide⟩
theorem witness_PcAdvanceFollowsOpcodeFields_jump :
    ∃ t, exec (.jeq (regByte 3)) (lab 9 0 []) = .next t ∧ t.status.isFault = false := ⟨_, rfl, rfl⟩
theorem witness_PcAdvanceFollowsOpcodeFields_fault :
    ∃ t, exec (.jmp 8) (lab 9 0 []) = .next t ∧ t.status.isFault = true := ⟨_, rfl, rfl⟩
theorem witness_StepPresentsOneTraceRecord :
    ∃ t, step { lab 0 0 [0x47, 0] with traceEnabled := true } = .next t ∧ t.trace.length = 1 := ⟨_, rfl, rfl⟩
theorem witness_readable_registers :
    (lab 0 0 []).isUnset 3 = false ∧ (lab 0 0 []).isUnset spIndex = false ∧ (lab 0 0 []).isUnset boundIndex = false := by
  decide
theorem witness_PrnEmitsRegister : (lab 0 0 []).isUnset 3 = false := by decide
theorem witness_JmpSetsPcToRegister : (lab 0 0 []).isUnset 3 = false ∧ (lab 0 0 []).isUnset 7 = false := by decide
theorem witness_AddAndMulWrapModulo256 : (lab 0 0 []).isUnset 0 = false ∧ (lab 0 0 []).isUnset 7 = false := by decide
theorem witness_AndOrXorActBitwise : (lab 0 0 []).isUnset 0 = false ∧ (lab 0 0 []).isUnset 1 = false := by decide
theorem witness_NotComplements : (lab 0 0 []).isUnset 2 = false ∧ (unsetLab []).isUnset 4 = false := by decide
theorem witness_HltHaltsWithStatusZero :
    (lab 253 0 [0x01]).status = .running ∧ (lab 253 0 [0x01]).pc ≤ 253 ∧
    (lab 253 0 [0x01]).mem.read (lab 253 0 [0x01]).pc = 0b00000001#8 := by decide
theorem witness_PushStoresAtDecrementedSp_boundary :
    ((machine #v[1, 2, 3, 4, 6, 5, 6, 7] 0 0 []).reg 4).toNat + 1 ≤ ((machine #v[1, 2, 3, 4, 6, 5, 6, 7] 0 0 []).reg 7).toNat ∧
    (machine #v[1, 2, 3, 4, 6, 5, 6, 7] 0 0 []).allSet := by
  refine ⟨by decide, fun r => ?_⟩
  revert r
  decide
theorem witness_PushBelowBoundaryOverflows_boundary :
    ((machine #v[1, 2, 3, 4, 6, 5, 6, 6] 0 0 []).reg 7).toNat < ((machine #v[1, 2, 3, 4, 6, 5, 6, 6] 0 0 []).reg 4).toNat + 1 ∧
    ((machine #v[1, 2, 3, 4, 0, 5, 6, 0] 0 0 []).reg 7).toNat < ((machine #v[1, 2, 3, 4, 0, 5, 6, 0] 0 0 []).reg 4).toNat + 1 ∧
    (machine #v[1, 2, 3, 4, 0, 5, 6, 0] 0 0 []).isUnset spIndex = false := by decide
theorem witness_PopLoadsAndSaturates :
    (lab 0 0 []).isUnset spIndex = false ∧ ((lab 0 0 []).reg 7).toNat = 0xF4 ∧
    ((machine #v[1, 2, 3, 4, 6, 5, 6, 0xF3] 0 0 []).reg 7).toNat < 0xF4 ∧ (3 : Reg) ≠ 7 := by decide
theorem witness_JeqBranchesOnEqual :
    ((lab 0 0x01 []).fl.getLsbD 0 = true ∧ (lab 0 0x01 []).isUnset 3 = false) ∧
    ((unsetLab []).fl.getLsbD 0 = true → (unsetLab []).isUnset 3 = false) := by decide
theorem witness_JneBranchesOnNotEqual :
    ((lab 0 0x04 []).fl.getLsbD 0 = false ∧ (lab 0 0x04 []).isUnset 3 = false) ∧
    ({ unsetLab [] with fl := 0x01#8 }.fl.getLsbD 0 = false → (unsetLab []).isUnset 3 = false) := by decide
theorem witness_ShiftsUseWholeAmount :
    ((machine #v[1, 7, 8, 4, 6, 5, 6, 7] 0 0 []).reg 1).toNat < 8 ∧
    ¬ ((machine #v[1, 7, 8, 4, 6, 5, 6, 7] 0 0 []).reg 2).toNat < 8 ∧
    (machine #v[1, 7, 8, 4, 6, 5, 6, 7] 0 0 []).isUnset 1 = false := by decide
theorem witness_CmpSetsExactlyOneFlag :
    (lab 0 0 []).isUnset 0 = false ∧ (lab 0 0 []).isUnset 1 = false ∧
    ((lab 0 0 []).reg 0).toNat < ((lab 0 0 []).reg 1).toNat ∧ ((lab 0 0 []).reg 0).toNat < ((lab 0 0 []).reg 7).toNat := by
  decide
theorem witness_AluTableOnUnboundedIntegersThenClamp :
    (∀ i ∈ [Instr.add (regByte 0) (regByte 1), .not (regByte 0), .cmp (regByte 0) (regByte 1)],
      i ∈ [Instr.add (regByte 0) (regByte 1), .mul (regByte 0) (regByte 1), .and (regByte 0) (regByte 1),
        .or (regByte 0) (regByte 1), .xor (regByte 0) (regByte 1), .not (regByte 0), .shl (regByte 0) (regByte 1),
        .shr (regByte 0) (regByte 1), .cmp (regByte 0) (regByte 1)]) ∧
    (lab 0 0 []).isUnset 0 = false ∧ (lab 0 0 []).isUnset 1 = false := by decide
theorem witness_RegisterWritingFormsFrame :
    (∃ t, exec (.add 0 1) (lab 0 0 []) = .next t ∧ t.status = .running) ∧
    (∃ t, exec (.not 8) (lab 0 0 []) = .next t ∧ t.status.isFault = true) := ⟨⟨_, rfl, rfl⟩, ⟨_, rfl, rfl⟩⟩
theorem witness_RegisterKeepingFormsFrame :
    (∃ t, exec (.cmp 0 1) (lab 0 0 []) = .next t ∧ t.fl = 0x04#8) ∧ (∃ t, exec .hlt (lab 0 0 []) = .next t ∧ t.pc = 1) :=
  ⟨⟨_, rfl, by decide⟩, ⟨_, rfl, by decide⟩⟩
theorem witness_PushFrame :
    (∃ t, exec (.push 1) (lab 0 0 []) = .next t ∧ t.mem.read 0xF3 = 2#8 ∧ (lab 0 0 []).pushAddress = 0xF3) ∧
    (∃ t, exec (.push 9) (lab 0 0 []) = .next t ∧ t.status.isFault = true ∧ (lab 0 0 []).status.isFault = false) :=
  ⟨⟨_, rfl, by decide, by decide⟩, ⟨_, rfl, rfl, rfl⟩⟩
theorem witness_PopFrame : ∃ t, exec (.pop 1) (lab 0 0 []) = .next t ∧ t.status = .running := ⟨_, rfl, by decide⟩
theorem witness_OnlyCmpWritesFlags :
    ∃ t, step (lab 0 0 [0xA7, 0, 1]) = .next t ∧ t.fl ≠ (lab 0 0 [0xA7, 0, 1]).fl := ⟨_, rfl, by decide⟩
theorem witness_OnlyPushWritesMemory :
    (∃ t, step (lab 0 0 [0x45, 1]) = .next t ∧ t.mem.read 0xF3 ≠ (lab 0 0 [0x45, 1]).mem.read 0xF3) ∧
    (∃ t, step (lab 254 0 []) = .next t ∧ t.status = .halted (.addressFault 256)) :=
  ⟨⟨_, rfl, by decide⟩, ⟨_, rfl, by decide⟩⟩
theorem witness_OutputGrowsOnlyByPrn : ∃ t, step (lab 0 0 [0x47, 3]) = .next t ∧ t.output = [0x0C#8] :=
  ⟨_, rfl, by decide⟩
theorem witness_FetchSeesPushedByte :
    ∃ t, exec (.push (regByte 1)) (lab 0 0 []) = .next t ∧ (lab 0 0 []).status = .running ∧ t.status = .running ∧
      ({ t with pc := 0xF3 } : State).mem = t.mem ∧
      ((({ t with pc := 0xF3 } : State).pc : Nat) : Int) = (lab 0 0 []).pushAddress ∧ 0xF3 ≤ 253 :=
  ⟨_, rfl, rfl, rfl, rfl, by decide, by decide⟩
theorem witness_BootMeetsInvariant : ∃ t, boot .unwrittenFaults true (.lines linesS7) = .next t ∧ t.reg 4 = 2#8 :=
  ⟨_, rfl, by decide⟩
theorem witness_StepKeepsInvariant :
    (lab 0 0 [0x45, 1]).Inv ∧ ∃ t, step (lab 0 0 [0x45, 1]) = .next t ∧ t.status = .running :=
  ⟨⟨by decide, by decide, by decide, by decide, by decide⟩, ⟨_, rfl, by decide⟩⟩
theorem witness_NoUnsetReadWhenAllSet : State.reset.allSet ∧ ∃ t, step State.reset = .next t := by
  refine ⟨fun r => ?_, ⟨_, rfl⟩⟩
  revert r
  decide
theorem witness_BytesBelowBoundarySurviveRun :
    (∀ j < 1, 2 ≤ ((runFor j (lab 0 0 [0x45, 1])).reg 4).toNat) ∧
    (runFor 1 (lab 0 0 [0x45, 1])).mem.read 0xF3 = 2#8 := by decide
theorem witness_PushesSucceedDownToBoundaryThenOverflow :
    ((machine #v[1, 2, 3, 4, 6, 5, 6, 8] 0 0 []).reg 4).toNat + 2 = ((machine #v[1, 2, 3, 4, 6, 5, 6, 8] 0 0 []).reg 7).toNat ∧
    (machine #v[1, 2, 3, 4, 6, 5, 6, 8] 0 0 []).status = .running ∧
    (machine #v[1, 2, 3, 4, 6, 5, 6, 8] 0 0 []).isUnset spIndex = false ∧
    (machine #v[1, 2, 3, 4, 6, 5, 6, 8] 0 0 []).isUnset boundIndex = false ∧
    (machine #v[1, 2, 3, 4, 6, 5, 6, 8] 0 0 []).isUnset 0 = false := by decide
theorem witness_StackRoundTripAcrossBalancedPairs :
    Balanced [.push (regByte 7), .pop (regByte 2)] ∧ ((lab 0 0 []).reg 7).toNat ≤ 0xF4 ∧
    ∃ t, runInstrs [.push (regByte 0), .push (regByte 7), .pop (regByte 2), .pop (regByte 1)] (lab 0 0 []) = .next t ∧
      t.status = .running :=
  ⟨.pair 7 2 (by decide) .nil, by decide, ⟨_, rfl, by decide⟩⟩

end Sys2Proof.Tests
end

section
/-! PROOFS of the family 30_encoding.md, opcode fields: what the bit slice `bits` reads at the top of a byte, at its
bottom and at one bit, and from that the record of every opcode byte (R72). -/

namespace Sys2Proof

/-- A slice that reaches the byte's top bit needs no cut from above. -/
theorem bits_seven (v : Byte) {lo : Nat} (hlo : lo ≤ 8) : bits v 7 lo = v.toNat / 2 ^ lo := by
  have hfits : v.toNat / 2 ^ lo < 2 ^ (8 - lo) := by
    rw [Nat.div_lt_iff_lt_mul (Nat.two_pow_pos lo), ← Nat.pow_add, Nat.sub_add_cancel hlo]
    exact v.isLt
  exact Nat.mod_eq_of_lt hfits

/-- A slice that starts at bit 0 needs no shift. -/
theorem bits_zero (v : Byte) (hi : Nat) : bits v hi 0 = v.toNat % 2 ^ (hi + 1) := by
  simp [bits]

theorem bits_self_beq_one (v : Byte) (k : Nat) : (bits v k k == 1) = v.getLsbD k := by
  have hwidth : bits v k k = v.toNat / 2 ^ k % 2 := by simp [bits]
  rw [hwidth, BitVec.getLsbD, Nat.testBit_eq_decide_div_mod_eq]
  rfl

/-- Settles O1, field by field: the count is the slice at the top, the id the slice at the bottom, and each of the two
marks a slice of one bit (30_encoding.md R72). -/
theorem opcodeFieldsAreItsBits : Obligations.OpcodeFieldsAreItsBits := by
  intro op
  simp [opFields, bits_seven, bits_zero, bits_self_beq_one]

end Sys2Proof
end

section
/-! PROOFS of the family 40_execution_loop.md, halted states and the pc advance: no step from `Halted` (R91), and where the
`pc` stands after an instruction that completed, by its opcode byte's own fields, and after one that faulted (R98). -/

namespace Sys2Proof.Machine

theorem step_halted {s : State} {c : HaltCause} (h : s.status = .halted c) : step s = .fault .noStepFromHalted := by
  simp [step, stepWith, h]

theorem runFor_halted {s : State} {c : HaltCause} (h : s.status = .halted c) (n : Nat) : runFor n s = s := by
  cases n with
  | zero => rfl
  | succ n => simp [runFor, step_halted h]

/-- Settles O15: a run from a halted state ends before its first step. -/
theorem haltedMachineHasNoStep : Obligations.HaltedMachineHasNoStep :=
  fun _ _ h => ⟨step_halted h, runFor_halted h⟩

/-- What a handler raises over its operands is a fault, never HLT's halt. -/
theorem OperandFault.isFault {ops : List Byte} {s : State} {c : HaltCause} (h : OperandFault ops s c) :
    (Status.halted c).isFault = true := by
  cases h <;> rfl

theorem operands_length (i : Instr) : i.operands.length = i.mnemonic.operandBytes := by
  cases i <;> rfl

/-- A fault leaves `pc`: from a running state every completing form ends running or in HLT's halt, so the fault was
raised. -/
theorem ExecResult.pc_of_isFault {s t : State} {i : Instr} (h : ExecResult s i t) (hs : s.status = .running)
    (hf : t.status.isFault = true) : t.pc = s.pc := by
  cases h with
  | operand i c hc => rfl
  | overflow a ho => rfl
  | _ => simp [hs, Status.isFault] at hf

/-- Where the opcode leaves `pc` to the loop, an instruction that completed is followed by the byte after its operands. -/
theorem ExecResult.pc_of_loop {s t : State} {i : Instr} (h : ExecResult s i t) (hm : i.mnemonic.handlerSetsPc = false)
    (hf : t.status.isFault = false) : t.pc = s.pc + 1 + i.mnemonic.operandBytes := by
  cases h with
  | operand i c hc => simp [hc.isFault] at hf
  | overflow a ho => nomatch hf
  | jmp | jeqTaken | jeqNot | jneTaken | jneNot => nomatch hm
  | two i f ra rb hra hrb hi =>
    have hn : i.mnemonic.operandBytes = 2 := by
      simp only [List.mem_cons, Prod.mk.injEq, List.not_mem_nil, or_false] at hi
      rcases hi with ⟨rfl, -⟩ | ⟨rfl, -⟩ | ⟨rfl, -⟩ | ⟨rfl, -⟩ | ⟨rfl, -⟩ | ⟨rfl, -⟩ | ⟨rfl, -⟩ <;> rfl
    rw [hn]
    rfl
  | _ => rfl

/-- Where the handler sets `pc`, a completed jump or branch leaves what it set (44_control_flow.md R151 to R153). -/
theorem pc_of_branch {taken : Bool} {m : Mnemonic} {s t : State} {r : Reg} (hm : m.handlerSetsPc = true)
    (h : settle m s (branchHandler taken (regByte r) s) = .next t) (hf : t.status.isFault = false) :
    t.pc = if taken then (s.reg r).toNat else s.pc + 2 := by
  rcases settle_cases h with ⟨u, hu, rfl⟩ | ⟨c, hc, rfl⟩
  · obtain ⟨q, hq, htaken⟩ := branchHandler_ok hu
    obtain rfl := regByte_inj.1 hq
    rw [advance_handler u hm]
    rcases htaken with ⟨rfl, -, rfl⟩ | ⟨rfl, rfl⟩ <;> rfl
  · simp [(branchHandler_error hc).isFault] at hf

/-- Settles O24: by what the instruction can do, with JMP as the branch that is always taken. -/
theorem pcAdvanceFollowsOpcodeFields : Obligations.PcAdvanceFollowsOpcodeFields := by
  intro i s t hs h
  have hresult := exec_result h
  refine ⟨fun hf => ⟨fun hm => ?_, ?_, ?_, ?_⟩, hresult.pc_of_isFault hs⟩
  · obtain ⟨hsets, hcount⟩ := opFields_opcodeMap i.mnemonic
    have hpc := hresult.pc_of_loop (hsets ▸ hm) hf
    exact ⟨hcount ▸ hpc, operands_length i ▸ hpc⟩
  · rintro r rfl
    exact pc_of_branch (m := .jmp) (taken := true) rfl h hf
  · rintro r rfl
    exact pc_of_branch (m := .jeq) rfl h hf
  · rintro r rfl
    rw [pc_of_branch (m := .jne) (taken := !isE s.fl) rfl h hf]
    cases isE s.fl <;> rfl

end Sys2Proof.Machine
end

section
/-! PROOFS of the family 41_alu.md, the table: what the three ALU handlers return on set registers, what a clamped result
leaves at the end of the step (R110, R111), and CMP's one flag (R120). -/

namespace Sys2Proof.Machine

section Handlers

variable {s : State} {ra rb : Reg}

theorem aluTwo_set (f : Byte → Byte → Byte) (hra : s.isUnset ra = false) (hrb : s.isUnset rb = false) :
    aluTwo f (regByte ra) (regByte rb) s = .ok (s.setReg ra (f (s.reg ra) (s.reg rb))) := by
  simp [aluTwo, hra, hrb]

theorem aluOne_set (f : Byte → Byte) (hra : s.isUnset ra = false) :
    aluOne f (regByte ra) s = .ok (s.setReg ra (f (s.reg ra))) := by
  simp [aluOne, hra]

theorem aluCompare_set (f : Byte → Byte → Byte) (hra : s.isUnset ra = false) (hrb : s.isUnset rb = false) :
    aluCompare f (regByte ra) (regByte rb) s = .ok (s.setFl (f (s.reg ra) (s.reg rb))) := by
  simp [aluCompare, hra, hrb]

end Handlers

@[simp] theorem toNat_clamp (n : Nat) : (clamp n).toNat = n % 256 := BitVec.toNat_ofNat n 8

theorem aluShl_eq_clamp_shiftLeft (x y : Byte) : aluShl x y = clamp (x.toNat <<< y.toNat) := by
  rw [aluShl, Nat.shiftLeft_eq]

theorem aluShr_eq_clamp_shiftRight (x y : Byte) : aluShr x y = clamp (x.toNat >>> y.toNat) := by
  rw [aluShr, Nat.shiftRight_eq_div_pow]

/-- The end of a step whose handler wrote the exact result `n`, clamped, to register `ra` (41_alu.md R111). -/
theorem settle_setReg_clamp (m : Mnemonic) {s : State} {ra : Reg} {n : Nat} {x : Except HaltCause State}
    (hx : x = .ok (s.setReg ra (clamp n))) :
    ∃ t, settle m s x = .next t ∧ (∀ r : Reg, r ≠ ra → t.reg r = s.reg r) ∧ (t.reg ra).toNat = n % 256 ∧ t.fl = s.fl := by
  subst hx
  refine ⟨_, settle_ok _ _ _, fun r hr => ?_, ?_, rfl⟩
  · simp [hr.symm]
  · simp

/-- CMP's flags name the one order of the two values that holds (41_alu.md R120). -/
theorem compareFlags_exactly_one (x y : Byte) :
    (isE (compareFlags x y) = true ∧ isG (compareFlags x y) = false ∧ isL (compareFlags x y) = false ∧
        x.toNat = y.toNat) ∨
      (isE (compareFlags x y) = false ∧ isG (compareFlags x y) = true ∧ isL (compareFlags x y) = false ∧
        y.toNat < x.toNat) ∨
      (isE (compareFlags x y) = false ∧ isG (compareFlags x y) = false ∧ isL (compareFlags x y) = true ∧
        x.toNat < y.toNat) := by
  unfold compareFlags
  split
  next heq => exact .inl ⟨rfl, rfl, rfl, heq⟩
  next hne =>
    split
    next hgt => exact .inr (.inl ⟨rfl, rfl, rfl, hgt⟩)
    next hle => exact .inr (.inr ⟨rfl, rfl, rfl, by omega⟩)

/-- Settles O40: the eight writing operations each return a clamp of their exact result, the shifts once their power of two
is read as a shift; CMP returns its flags and writes no register. -/
theorem aluTableOnUnboundedIntegersThenClamp : Obligations.AluTableOnUnboundedIntegersThenClamp := by
  intro i ra rb s hi hra hrb
  simp only [List.mem_cons, List.not_mem_nil, or_false] at hi
  obtain rfl | rfl | rfl | rfl | rfl | rfl | rfl | rfl | rfl := hi
  · exact settle_setReg_clamp .add (aluTwo_set aluAdd hra hrb)
  · exact settle_setReg_clamp .mul (aluTwo_set aluMul hra hrb)
  · exact settle_setReg_clamp .and (aluTwo_set aluAnd hra hrb)
  · exact settle_setReg_clamp .or (aluTwo_set aluOr hra hrb)
  · exact settle_setReg_clamp .xor (aluTwo_set aluXor hra hrb)
  · exact settle_setReg_clamp .not (aluOne_set aluNot hra)
  · exact settle_setReg_clamp .shl (aluShl_eq_clamp_shiftLeft _ _ ▸ aluTwo_set aluShl hra hrb)
  · exact settle_setReg_clamp .shr (aluShr_eq_clamp_shiftRight _ _ ▸ aluTwo_set aluShr hra hrb)
  · have hcmp : exec (.cmp (regByte ra) (regByte rb)) s =
        .next ((s.setFl (compareFlags (s.reg ra) (s.reg rb))).advance (opcodeMap .cmp)) :=
      congrArg (settle .cmp s) (aluCompare_set compareFlags hra hrb)
    exact ⟨_, hcmp, fun _ _ => rfl, rfl, rfl, compareFlags_exactly_one _ _⟩

end Sys2Proof.Machine
end

section
/-! PROOFS of the family 60_exceptions.md, Unknown Instruction (R161): an unregistered byte ends the step before dispatch,
and nothing that was dispatched halts with that cause. -/

namespace Sys2Proof.Machine

/-- No handler raises the loop's own fault over its operands. -/
theorem OperandFault.ne_unknownInstruction {ops : List Byte} {s : State} {c : HaltCause} (h : OperandFault ops s c)
    (op : Byte) : c ≠ .unknownInstruction op := by
  cases h <;> simp

/-- No instruction ends in Unknown Instruction: each completes running or in HLT's halt, or raises a fault of its own. -/
theorem ExecResult.status_ne_unknownInstruction {s t : State} {i : Instr} (h : ExecResult s i t)
    (hs : s.status = .running) (op : Byte) : t.status ≠ .halted (.unknownInstruction op) := by
  cases h with
  | operand i c hc => simpa using hc.ne_unknownInstruction op
  | _ => simp [hs]

/-- A byte that no row has ends the step after the fetch (40_execution_loop.md R95). -/
theorem step_unregistered {s : State} (hs : s.status = .running) (hpc : s.pc ≤ 253)
    (hop : ∀ m, opcodeMap m ≠ s.mem.read s.pc) :
    step s = .next (s.emitTrace.raise (.unknownInstruction (s.mem.read s.pc))) := by
  have hfetch : s.emitTrace.fetch = .ok ⟨s.mem.read s.pc, s.mem.read (s.pc + 1), s.mem.read (s.pc + 2)⟩ :=
    fetch_ok.2 ⟨hpc, rfl⟩
  simp [step, stepWith, hs, hfetch, decode, decodeWith, registered_none.2 hop]

/-- Settles O19: the byte without a row by the loop, and the converse by what a step can do: a fetch fault has another
cause, and so has every end of a dispatched instruction. -/
theorem unregisteredOpcodeHalts : Obligations.UnregisteredOpcodeHalts := by
  intro s hs hpc
  refine ⟨fun hop => ⟨step_unregistered hs hpc hop, rfl⟩, fun t op h ht => ?_⟩
  obtain ⟨-, ⟨-, rfl⟩ | ⟨-, hnone, rfl⟩ | ⟨-, m, -, hexec⟩⟩ := step_cases h
  · simp at ht
  · obtain rfl : s.mem.read s.pc = op := by simpa using ht
    exact ⟨rfl, registered_none.1 hnone⟩
  · exact absurd ht ((exec_result hexec).status_ne_unknownInstruction hs op)

end Sys2Proof.Machine
end

section
/-! PROOFS of the family 70_reset_and_hazards.md, a program that cannot be read (R182): what `boot` answers for it, and that
the machine it answers is halted before its first step. -/

namespace Sys2Proof.Machine

@[simp] theorem boot_unreadable (p : RegReset) (traceEnabled : Bool) :
    boot p traceEnabled .unreadable = .next ((State.constructed p traceEnabled).raise .ioError) := rfl

@[simp] theorem State.constructed_output (p : RegReset) (traceEnabled : Bool) :
    (State.constructed p traceEnabled).output = [] := rfl

/-- Settles O14: the loader raises `IOError` on the constructed machine, whose output port is still empty; from there on it
is one more halted state (40_execution_loop.md R91). -/
theorem unreadableProgramHaltsBeforeAnyStep : Obligations.UnreadableProgramHaltsBeforeAnyStep := by
  intro p tr
  have hstatus : ((State.constructed p tr).raise .ioError).status = .halted .ioError := State.raise_status _ _
  have houtput : ((State.constructed p tr).raise .ioError).output = [] := by simp
  exact ⟨_, boot_unreadable p tr, hstatus, congrArg Status.exitStatus hstatus, houtput, step_halted hstatus⟩

end Sys2Proof.Machine
end

section
/-! PROOFS of the family 30_encoding.md, decoder and encoder: the constraints on an opcode map (R77), the lookup by the whole
byte (R78, R79), and the round trip in both directions for every map that meets them (R70, R73, R76). -/

namespace Sys2Proof

open Laws
open Machine (operands_length)

theorem OpcodeMap.admissible_iff {map : OpcodeMap} :
    map.admissible = true ↔
      (∀ m, (opFields (map m)).operandCount = m.operandBytes ∧ (opFields (map m)).isAlu = m.aluBacked ∧
        (opFields (map m)).setsPc = m.handlerSetsPc) ∧
      Function.Injective map := by
  simp only [admissible, Bool.and_eq_true, List.all_eq_true, Mnemonic.mem_all, forall_const, beq_iff_eq, Bool.or_eq_true,
    bne_iff_ne, and_assoc, Function.Injective]
  refine and_congr_right fun _ => forall_congr' fun m => forall_congr' fun n => ?_
  rw [or_comm, ← imp_iff_not_or]

theorem opcodeMap_admissible : opcodeMap.admissible = true := by decide

theorem opcodeMap_injective : Function.Injective opcodeMap :=
  (OpcodeMap.admissible_iff.1 opcodeMap_admissible).2

/-- The lookup finds a mnemonic by its own byte when no two mnemonics share one. -/
theorem registered_self {map : OpcodeMap} (hinj : Function.Injective map) (m : Mnemonic) :
    registered map (map m) = some m := by
  cases h : registered map (map m) with
  | none => exact absurd rfl (registered_none.1 h m)
  | some n => rw [hinj (registered_some h)]

@[simp] theorem assemble_mnemonic (m : Mnemonic) (o1 o2 : Byte) : (assemble m o1 o2).mnemonic = m := by
  cases m <;> rfl

theorem assemble_operands (m : Mnemonic) (o1 o2 : Byte) :
    (assemble m o1 o2).operands = [o1, o2].take m.operandBytes := by
  cases m <;> rfl

/-- What the decoder makes of a window whose byte is a mnemonic's. -/
theorem decodeWith_registered {map : OpcodeMap} (hinj : Function.Injective map) (m : Mnemonic) (o1 o2 : Byte) :
    decodeWith map ⟨map m, o1, o2⟩ = .ok (assemble m o1 o2) := by
  simp [decodeWith, registered_self hinj]

theorem decodeWith_ok {map : OpcodeMap} {w : Window} {i : Instr} (h : decodeWith map w = .ok i) :
    ∃ m, map m = w.op ∧ i = assemble m w.o1 w.o2 := by
  unfold decodeWith at h
  split at h
  · exact nomatch h
  · exact ⟨_, registered_some ‹_›, (Except.ok.inj h).symm⟩

theorem decodeWith_rejects_iff {map : OpcodeMap} {w : Window} :
    decodeWith map w = .error (.unknownInstruction w.op) ↔ ∀ m, map m ≠ w.op := by
  rw [← registered_none]
  cases h : registered map w.op <;> simp [decodeWith, h]

theorem assembleOperands (i : Instr) : AssembleOperands.Statement i := by
  cases i with
  | ldi a i => exact AssembleOperands.ldi a i
  | prn a => exact AssembleOperands.prn a
  | hlt => exact AssembleOperands.hlt
  | push a => exact AssembleOperands.push a
  | pop a => exact AssembleOperands.pop a
  | jmp a => exact AssembleOperands.jmp a
  | jeq a => exact AssembleOperands.jeq a
  | jne a => exact AssembleOperands.jne a
  | add a b => exact AssembleOperands.add a b
  | mul a b => exact AssembleOperands.mul a b
  | cmp a b => exact AssembleOperands.cmp a b
  | and a b => exact AssembleOperands.and a b
  | or a b => exact AssembleOperands.or a b
  | xor a b => exact AssembleOperands.xor a b
  | not a => exact AssembleOperands.not a
  | shl a b => exact AssembleOperands.shl a b
  | shr a b => exact AssembleOperands.shr a b

/-- The round trip for every map whose bytes are distinct: the lookup finds the mnemonic again and the operand bytes
assemble to the same instruction. -/
theorem decodeWith_encodeWith {map : OpcodeMap} (hinj : Function.Injective map) {i : Instr} {op o1 o2 : Byte}
    {rest tail : List Byte} (h : encodeWith map i ++ tail = op :: o1 :: o2 :: rest) :
    decodeWith map ⟨op, o1, o2⟩ = .ok i := by
  obtain ⟨rfl, hoperands⟩ := List.cons.inj h
  rw [decodeWith_registered hinj, assembleOperands i o1 o2 rest tail hoperands]

/-- Settles O4: the default map's bytes are distinct. -/
theorem encodedInstructionDecodesToItself : Obligations.EncodedInstructionDecodesToItself :=
  fun _ _ _ _ _ _ h => decodeWith_encodeWith opcodeMap_injective h

/-- Settles O5: a decoded instruction's operand bytes are the first ones of the window's two. -/
theorem decodedInstructionEncodesToWindow : Obligations.DecodedInstructionEncodesToWindow := by
  intro w i h
  obtain ⟨m, hop, rfl⟩ := decodeWith_ok h
  rw [encode, encodeWith, assemble_mnemonic, assemble_operands, hop]
  exact List.take_prefix (m.operandBytes + 1) [w.op, w.o1, w.o2]

/-- Settles O6: round trip and rejection need the distinct bytes only, the length the count field of the byte. -/
theorem admissibleOpcodeMapRoundTrips : Obligations.AdmissibleOpcodeMapRoundTrips := by
  intro map hmap
  obtain ⟨hfields, hinj⟩ := OpcodeMap.admissible_iff.1 hmap
  refine ⟨fun i op o1 o2 rest tail h => ⟨decodeWith_encodeWith hinj h, ?_⟩, fun w => decodeWith_rejects_iff.symm⟩
  obtain ⟨rfl, -⟩ := List.cons.inj h
  rw [(hfields i.mnemonic).1, encodeWith, List.length_cons, operands_length, Nat.add_comm]

/-- Settles O2: the default map is admissible. -/
theorem opcodeMapMeetsFieldConstraints : Obligations.OpcodeMapMeetsFieldConstraints :=
  OpcodeMap.admissible_iff.1 opcodeMap_admissible

/-- Settles O3 by running the decoder on the eight words. -/
theorem writtenWordsDecode : Obligations.WrittenWordsDecode := by
  unfold Obligations.WrittenWordsDecode
  decide

/-- Settles O7 by counting over the 256 bytes. -/
theorem unregisteredBytesNumber239 : Obligations.UnregisteredBytesNumber239 := by
  unfold Obligations.UnregisteredBytesNumber239
  decide +kernel

end Sys2Proof
end

section
/-! PROOFS of the family 10_state.md, frames: what each field of the state can become in one instruction, read off the result
of every instruction once (R24, R28, R33), for the statements about instructions, steps and runs to cite. -/

namespace Sys2Proof.Machine

/-- The registers an instruction may write (10_state.md R24): its first operand's, SP for PUSH, both for POP. -/
def writesReg : Instr → Reg → Prop
  | .ldi a _, r | .add a _, r | .mul a _, r | .and a _, r | .or a _, r | .xor a _, r | .not a, r | .shl a _, r
  | .shr a _, r => regByte r = a
  | .push _, r => r = spIndex
  | .pop a, r => regByte r = a ∨ r = spIndex
  | .prn _, _ | .hlt, _ | .cmp _ _, _ | .jmp _, _ | .jeq _, _ | .jne _, _ => False

/-- The two-register ALU instructions with their operations, as `ExecResult.two` lists them. -/
abbrev twoForms (ra rb : Reg) : List (Instr × (Byte → Byte → Byte)) :=
  [(.add (regByte ra) (regByte rb), aluAdd), (.mul (regByte ra) (regByte rb), aluMul),
    (.and (regByte ra) (regByte rb), aluAnd), (.or (regByte ra) (regByte rb), aluOr),
    (.xor (regByte ra) (regByte rb), aluXor), (.shl (regByte ra) (regByte rb), aluShl),
    (.shr (regByte ra) (regByte rb), aluShr)]

theorem twoForms_writesReg {i : Instr} {f : Byte → Byte → Byte} {ra rb : Reg} (hi : (i, f) ∈ twoForms ra rb) :
    writesReg i ra := by
  simp only [List.mem_cons, Prod.mk.injEq, List.not_mem_nil, or_false] at hi
  obtain ⟨rfl, -⟩ | ⟨rfl, -⟩ | ⟨rfl, -⟩ | ⟨rfl, -⟩ | ⟨rfl, -⟩ | ⟨rfl, -⟩ | ⟨rfl, -⟩ := hi <;> rfl

theorem sameReg_setReg_of_ne {s : State} {r q : Reg} (v : Byte) (h : q ≠ r) : sameReg s (s.setReg q v) r := by
  simp [sameReg, h]

theorem sameReg_incrementSp_of_ne {s : State} {r : Reg} (h : r ≠ spIndex) : sameReg s s.incrementSp r := by
  simp [sameReg, h.symm]

variable {s t : State} {i : Instr}

/-- A register that the instruction does not write is unchanged. -/
theorem ExecResult.sameReg (h : ExecResult s i t) {r : Reg} (hr : ¬ writesReg i r) : sameReg s t r := by
  cases h with
  | ldi q v => exact sameReg_setReg_of_ne v fun hq => hr (congrArg regByte hq.symm)
  | not q hq => exact sameReg_setReg_of_ne _ fun hq => hr (congrArg regByte hq.symm)
  | two i f ra rb hra hrb hi => exact sameReg_setReg_of_ne _ fun hq => hr (hq ▸ twoForms_writesReg hi)
  | push q h7 h4 hq ho => exact sameReg_setReg_of_ne (s := s) _ fun hq => hr hq.symm
  | pop q h7 =>
    have hq : q ≠ r := fun hq => hr (.inl (congrArg regByte hq.symm))
    obtain ⟨hreg, hunset⟩ := sameReg_incrementSp_of_ne (s := s.setReg q (s.mem.read (s.reg spIndex).toNat))
      fun hsp => hr (.inr hsp)
    obtain ⟨hreg', hunset'⟩ := sameReg_setReg_of_ne (s := s) (s.mem.read (s.reg spIndex).toNat) hq
    exact ⟨hreg.trans hreg', hunset.trans hunset'⟩
  | _ => exact ⟨rfl, rfl⟩

/-- Only CMP writes FL (R28). -/
theorem ExecResult.fl_eq (h : ExecResult s i t) (hi : i.mnemonic ≠ .cmp) : t.fl = s.fl := by
  cases h with
  | cmp => exact absurd rfl hi
  | _ => simp

/-- Only PRN emits, the value of the register it names (R33). -/
theorem ExecResult.output_cases (h : ExecResult s i t) :
    t.output = s.output ∨ ∃ r, i = .prn (regByte r) ∧ t.output = s.output ++ [s.reg r] := by
  cases h with
  | prn r hr => exact .inr ⟨r, rfl, rfl⟩
  | _ => exact .inl (by simp)

/-- No instruction touches the trace port or its switch (R36). -/
theorem ExecResult.trace_eq (h : ExecResult s i t) : t.trace = s.trace ∧ t.traceEnabled = s.traceEnabled := by
  cases h <;> simp

/-- Only PUSH writes memory, at its own address and only where it does not overflow (43_stack.md R141). -/
theorem ExecResult.mem_cases (h : ExecResult s i t) :
    t.mem = s.mem ∨
      (i.mnemonic = .push ∧ s.pushOverflows = false ∧ ∃ v, t.mem = s.mem.write s.pushAddress.toNat v) := by
  cases h with
  | push r h7 h4 hr ho => exact .inr ⟨rfl, ho, _, rfl⟩
  | _ => exact .inl (by simp)

/-- The status is unchanged but for HLT's halt and a fault; after a fault nothing else has changed (60_exceptions.md
R167). -/
theorem ExecResult.status_cases (h : ExecResult s i t) :
    t.status = s.status ∨ (i = .hlt ∧ t.status = .halted .normal) ∨
      ∃ c, (Status.halted c).isFault = true ∧ t = s.raise c := by
  cases h with
  | hlt => exact .inr (.inl ⟨rfl, rfl⟩)
  | operand i c hc => exact .inr (.inr ⟨c, hc.isFault, rfl⟩)
  | overflow a ho => exact .inr (.inr ⟨_, rfl, rfl⟩)
  | _ => exact .inl (by simp)

/-- No instruction makes a set register unset (R39). -/
theorem ExecResult.isUnset_false (h : ExecResult s i t) {r : Reg} (hr : s.isUnset r = false) : t.isUnset r = false := by
  cases h <;> simp [hr]

theorem ExecResult.mem_eq (h : ExecResult s i t) (hi : i.mnemonic ≠ .push) : t.mem = s.mem :=
  h.mem_cases.resolve_right fun hpush => hi hpush.1

theorem ExecResult.output_eq (h : ExecResult s i t) (hi : i.mnemonic ≠ .prn) : t.output = s.output :=
  h.output_cases.resolve_right fun ⟨_, hprn, _⟩ => hi (hprn ▸ rfl)

theorem ExecResult.samePorts (h : ExecResult s i t) (hi : i.mnemonic ≠ .prn) : samePorts s t :=
  ⟨h.output_eq hi, h.trace_eq⟩

theorem ExecResult.status_eq_or_isFault (h : ExecResult s i t) (hi : i ≠ .hlt) :
    t.status = s.status ∨ t.status.isFault = true := by
  obtain hsame | ⟨hhlt, -⟩ | ⟨c, hc, rfl⟩ := h.status_cases
  · exact .inl hsame
  · exact absurd hhlt hi
  · exact .inr hc

/-- A byte at another address than the one PUSH stores to is unchanged. -/
theorem ExecResult.read_of_ne_pushAddress (h : ExecResult s i t) {addr : Nat} (ha : (addr : Int) ≠ s.pushAddress) :
    t.mem.read addr = s.mem.read addr := by
  obtain hmem | ⟨-, ho, v, hmem⟩ := h.mem_cases
  · rw [hmem]
  · obtain ⟨hnonneg, -⟩ := pushAddress_range ho
    rw [hmem, Memory.read_write, if_neg (by omega)]

/-- A byte below R4 is unchanged: PUSH does not store below the boundary. -/
theorem ExecResult.read_of_lt_bound (h : ExecResult s i t) {addr : Nat} (ha : addr < (s.reg boundIndex).toNat) :
    t.mem.read addr = s.mem.read addr := by
  obtain hmem | ⟨-, ho, v, hmem⟩ := h.mem_cases
  · rw [hmem]
  · obtain ⟨-, -, -, hbound⟩ := pushAddress_range ho
    rw [hmem, Memory.read_write, if_neg (by omega)]

end Sys2Proof.Machine
end

section
/-! PROOFS of the family 40_execution_loop.md, the whole step: the equation of a step for each way its fetch and decode go
(R92 to R97), and what follows for every step from what an instruction can do: precise faults, HLT, the trace port, FL,
memory and the output port. -/

namespace Sys2Proof.Machine

variable {s t : State}

theorem State.fetch_emitTrace : s.emitTrace.fetch = s.fetch := rfl

/-- A window that leaves memory ends the step with the fetch's fault (R93). -/
theorem step_fetchFault (hs : s.status = .running) (hpc : 253 < s.pc) :
    step s = .next (s.emitTrace.raise (.addressFault (max s.pc 256 : Nat))) := by
  simp [step, stepWith, hs, State.fetch_emitTrace, fetch_error.2 ⟨hpc, rfl⟩]

theorem step_decoded {i : Instr} (hs : s.status = .running) (hpc : s.pc ≤ 253)
    (hi : decode ⟨s.mem.read s.pc, s.mem.read (s.pc + 1), s.mem.read (s.pc + 2)⟩ = .ok i) :
    step s = exec i s.emitTrace := by
  simp [step, stepWith, hs, State.fetch_emitTrace, fetch_ok.2 ⟨hpc, rfl⟩, hi]

/-- A row's byte inside memory runs the row's instruction (R97). -/
theorem step_registered {m : Mnemonic} (hs : s.status = .running) (hpc : s.pc ≤ 253)
    (hm : s.mem.read s.pc = opcodeMap m) :
    step s = exec (assemble m (s.mem.read (s.pc + 1)) (s.mem.read (s.pc + 2))) s.emitTrace :=
  step_decoded hs hpc (hm ▸ decodeWith_registered opcodeMap_injective m _ _)

/-- Settles O16: the fetch faults, the byte has no row, or an instruction runs. -/
theorem runningMachineAlwaysSteps : Obligations.RunningMachineAlwaysSteps := by
  intro s hs
  by_cases hpc : s.pc ≤ 253
  · by_cases hop : ∀ m, opcodeMap m ≠ s.mem.read s.pc
    · exact ⟨_, step_unregistered hs hpc hop⟩
    · obtain ⟨m, hm⟩ := not_forall_not.1 hop
      rw [step_registered hs hpc hm.symm]
      exact exec_answers _ _
  · exact ⟨_, step_fetchFault hs (by omega)⟩

/-- Settles O17: the trace record is all that the loop adds before the instruction. -/
theorem stepRunsDecodedInstruction : Obligations.StepRunsDecodedInstruction :=
  fun _ _ hs hpc hi => step_decoded hs hpc hi

/-- Settles O18: the first address above 255 is 256, or `pc` itself where that is above it. -/
theorem fetchBeyondMemoryHalts : Obligations.FetchBeyondMemoryHalts := by
  intro s hs hpc
  have haddr : ((max s.pc 256 : Nat) : Int) = if s.pc ≤ 255 then 256 else (s.pc : Int) := by split <;> omega
  rw [step_fetchFault hs (by omega), haddr]
  rfl

/-- Every step is a fault raised before dispatch, or the result of the instruction of the byte at `pc`, with that byte
inside memory. -/
theorem step_result (h : step s = .next t) :
    (∃ c, (Status.halted c).isFault = true ∧ t = s.emitTrace.raise c ∧ (∀ r, c ≠ .unsetRegisterRead r) ∧
        ∀ a, c = .addressFault a → 253 < s.pc) ∨
      ∃ m, s.pc ≤ 253 ∧ s.mem.read s.pc = opcodeMap m ∧
        ExecResult s.emitTrace (assemble m (s.mem.read (s.pc + 1)) (s.mem.read (s.pc + 2))) t := by
  obtain ⟨-, ⟨hpc, rfl⟩ | ⟨-, -, rfl⟩ | ⟨hpc, m, hm, hexec⟩⟩ := step_cases h
  · exact .inl ⟨_, rfl, rfl, nofun, fun _ _ => hpc⟩
  · exact .inl ⟨_, rfl, rfl, nofun, nofun⟩
  · exact .inr ⟨m, hpc, (registered_some hm).symm, exec_result hexec⟩

/-- Settles O22: a fault before dispatch is raised in the traced state, and one of an instruction is too. -/
theorem faultsArePrecise : Obligations.FaultsArePrecise := by
  intro s t c h ht hc
  have hs : s.status = .running := (step_cases h).1
  obtain ⟨c', -, rfl, -⟩ | ⟨m, -, -, hresult⟩ := step_result h
  · obtain rfl : c' = c := by simpa using ht
    rfl
  · obtain hsame | ⟨-, hhalt⟩ | ⟨c', -, rfl⟩ := hresult.status_cases
    · simp [hsame, hs] at ht
    · exact absurd (by simpa [hhalt] using ht.symm) hc
    · obtain rfl : c' = c := by simpa using ht
      rfl

theorem exec_hlt (s : State) : exec .hlt s = .next ((s.halt .normal).setPc (s.pc + 1)) :=
  congrArg Host.Outcome.next (advance_loop (m := .hlt) (s.halt .normal) rfl)

theorem assemble_eq_hlt_iff {m : Mnemonic} {o1 o2 : Byte} : assemble m o1 o2 = .hlt ↔ m = .hlt := by
  cases m <;> simp [assemble]

/-- Settles O23: HLT's result is the one instruction result halted without a fault, and 0x01 is its byte alone. -/
theorem onlyHltHaltsNormally : Obligations.OnlyHltHaltsNormally := by
  intro s t h hpc
  have hs : s.status = .running := (step_cases h).1
  constructor
  · intro ht
    obtain ⟨c, hc, rfl, -⟩ | ⟨m, -, hm, hresult⟩ := step_result h
    · obtain rfl : c = .normal := by simpa using ht
      exact nomatch hc
    · obtain hsame | ⟨hhlt, -⟩ | ⟨c, hc, rfl⟩ := hresult.status_cases
      · simp [hsame, hs] at ht
      · rw [hm, assemble_eq_hlt_iff.1 hhlt]
        rfl
      · obtain rfl : c = .normal := by simpa using ht
        exact nomatch hc
  · intro hop
    rw [step_registered (m := .hlt) hs hpc hop, assemble, exec_hlt] at h
    obtain rfl := Host.Outcome.next.inj h
    rfl

theorem State.traceByte_eq (s : State) (addr : Nat) :
    s.traceByte addr = if addr ≤ 255 then some (s.mem.read addr) else none :=
  if_congr (Nat.lt_succ_iff (n := 255)) rfl rfl

theorem State.traceRecord_regs (s : State) (r : Reg) : s.traceRecord.regs[r] = s.traceReg r := by
  fin_cases r <;> rfl

theorem step_trace (h : step s = .next t) :
    t.traceEnabled = s.traceEnabled ∧ t.trace = if s.traceEnabled then s.trace ++ [s.traceRecord] else s.trace := by
  obtain ⟨c, -, rfl, -⟩ | ⟨m, -, -, hresult⟩ := step_result h
  · exact ⟨rfl, rfl⟩
  · exact hresult.trace_eq.symm

/-- Settles O25: the loop presents the record, and no instruction touches the trace port. -/
theorem stepPresentsOneTraceRecord : Obligations.StepPresentsOneTraceRecord := by
  intro s t h
  obtain ⟨henabled, htrace⟩ := step_trace h
  refine ⟨henabled, htrace, rfl, s.traceByte_eq _, s.traceByte_eq _, s.traceByte_eq _, fun r hr => ?_⟩
  exact (s.traceRecord_regs r).trans (if_neg (by simp [hr]))

/-- Settles O45: a fault leaves FL, and so does every instruction but CMP. -/
theorem onlyCmpWritesFlags : Obligations.OnlyCmpWritesFlags := by
  intro s t h hfl
  obtain ⟨c, -, rfl, -⟩ | ⟨m, hpc, hm, hresult⟩ := step_result h
  · exact absurd rfl hfl
  · obtain rfl : m = .cmp := by
      by_contra hcmp
      exact hfl (hresult.fl_eq (by simpa using hcmp))
    exact ⟨hpc, hm⟩

/-- No handler addresses memory outside 0 to 255 (90_conflicts.md C2). -/
theorem OperandFault.ne_addressFault {ops : List Byte} {c : HaltCause} (h : OperandFault ops s c) (a : Int) :
    c ≠ .addressFault a := by
  cases h <;> simp

theorem ExecResult.status_ne_addressFault {i : Instr} (h : ExecResult s i t) (hs : s.status = .running) (a : Int) :
    t.status ≠ .halted (.addressFault a) := by
  cases h with
  | operand i c hc => simpa using hc.ne_addressFault a
  | _ => simp [hs]

/-- Settles O46: a fault before dispatch leaves memory, and PUSH alone writes it, at its own address; the address fault is
the fetch's. -/
theorem onlyPushWritesMemory : Obligations.OnlyPushWritesMemory := by
  intro s t h
  have hs : s.status = .running := (step_cases h).1
  obtain ⟨c, -, rfl, -, hfetch⟩ | ⟨m, hpc, hm, hresult⟩ := step_result h
  · exact ⟨fun addr hread => absurd rfl hread, fun a ha => hfetch a (by simpa using ha)⟩
  · refine ⟨fun addr hread => ⟨hpc, ?_, ?_⟩, fun a ha => absurd ha (hresult.status_ne_addressFault hs a)⟩
    · obtain rfl : m = .push := by
        by_contra hpush
        exact hread (by rw [hresult.mem_eq (by simpa using hpush), State.emitTrace_mem])
      exact hm
    · by_contra haddr
      exact hread (hresult.read_of_ne_pushAddress haddr)

theorem assemble_eq_prn {m : Mnemonic} {o1 o2 a : Byte} (h : assemble m o1 o2 = .prn a) : m = .prn ∧ o1 = a := by
  cases m <;> simp_all [assemble]

/-- Settles O47: the output of an instruction's result is the old one, or PRN's. -/
theorem outputGrowsOnlyByPrn : Obligations.OutputGrowsOnlyByPrn := by
  intro s t h
  obtain ⟨c, -, rfl, -⟩ | ⟨m, -, hm, hresult⟩ := step_result h
  · exact .inl rfl
  · obtain hsame | ⟨r, hprn, hout⟩ := hresult.output_cases
    · exact .inl hsame
    · obtain ⟨rfl, ho1⟩ := assemble_eq_prn hprn
      exact .inr ⟨hm, r, ho1, hout⟩

end Sys2Proof.Machine
end

section
/-! PROOFS of the families 10_state.md and 70_reset_and_hazards.md, invariants and runs: what every step keeps (R26 to R28, R39),
the bytes below R4 over a run (R185), and that no step reads the trace port or its switch (R36). -/

namespace Sys2Proof.Machine

variable {s t : State} {i : Instr}

/-- A halt touches nothing that the invariant speaks of. -/
theorem State.Inv.raise (h : s.Inv) (c : HaltCause) : (s.raise c).Inv :=
  ⟨h.mem_wf, h.pc_le, h.fl_mem, h.bound_set, h.sp_set⟩

theorem State.Inv.emitTrace (h : s.Inv) : s.emitTrace.Inv :=
  ⟨h.mem_wf, h.pc_le, h.fl_mem, h.bound_set, h.sp_set⟩

theorem compareFlags_mem (x y : Byte) : compareFlags x y ∈ [0x00#8, 0x01#8, 0x02#8, 0x04#8] := by
  unfold compareFlags
  split
  · decide
  · split <;> decide

theorem ExecResult.mem_wf (h : ExecResult s i t) (hs : s.mem.wf) : t.mem.wf := by
  obtain hmem | ⟨-, ho, v, hmem⟩ := h.mem_cases
  · rwa [hmem]
  · obtain ⟨-, hlt, -⟩ := pushAddress_range ho
    rw [hmem]
    exact Memory.wf_write v hs (show s.pushAddress.toNat < 256 by omega)

/-- From a fetched instruction the `pc` moves at most three bytes on, or to a register's value. -/
theorem ExecResult.pc_le (h : ExecResult s i t) (hpc : s.pc ≤ 253) : t.pc ≤ 256 := by
  cases h with
  | jmp r | jeqTaken r | jneTaken r => exact (s.reg r).isLt.le
  | _ => simp; omega

theorem ExecResult.fl_mem (h : ExecResult s i t) (hs : s.fl ∈ [0x00#8, 0x01#8, 0x02#8, 0x04#8]) :
    t.fl ∈ [0x00#8, 0x01#8, 0x02#8, 0x04#8] := by
  cases h with
  | cmp => exact compareFlags_mem _ _
  | _ => simpa using hs

theorem ExecResult.inv (h : ExecResult s i t) (hs : s.Inv) (hpc : s.pc ≤ 253) : t.Inv :=
  ⟨h.mem_wf hs.mem_wf, h.pc_le hpc, h.fl_mem hs.fl_mem, h.isUnset_false hs.bound_set, h.isUnset_false hs.sp_set⟩

/-- Settles O51: a fault before dispatch halts, and an instruction's result keeps each part from a `pc` whose window lies in
memory. -/
theorem stepKeepsInvariant : Obligations.StepKeepsInvariant := by
  intro s t hs h
  obtain ⟨c, -, rfl, -⟩ | ⟨m, hpc, -, hresult⟩ := step_result h
  · exact hs.emitTrace.raise c
  · exact hresult.inv hs.emitTrace hpc

/-- Where every register is set, no instruction ends in the read of an unset one. -/
theorem ExecResult.status_ne_unsetRegisterRead (h : ExecResult s i t) (hs : s.status = .running) (hset : s.allSet)
    (r : Reg) : t.status ≠ .halted (.unsetRegisterRead r) := by
  cases h with
  | operand i c hc =>
    cases hc with
    | index b hm hb => simp
    | unset q hq => simp [hset q] at hq
  | _ => simp [hs]

/-- Settles O52: an instruction sets registers only, and the loop's own faults read none. -/
theorem noUnsetReadWhenAllSet : Obligations.NoUnsetReadWhenAllSet := by
  intro s t hset h
  have hs : s.status = .running := (step_cases h).1
  obtain ⟨c, -, rfl, hc, -⟩ | ⟨m, -, -, hresult⟩ := step_result h
  · exact ⟨hset, fun r => by simpa using hc r⟩
  · exact ⟨fun r => hresult.isUnset_false (hset r), hresult.status_ne_unsetRegisterRead hs hset⟩

theorem runFor_next (h : step s = .next t) (n : Nat) : runFor (n + 1) s = runFor n t := by
  simp [runFor, h]

/-- A machine that has no next step stays where it is. -/
theorem runFor_eq_self (h : ∀ t, step s ≠ .next t) (n : Nat) : runFor n s = s := by
  cases hs : s.status with
  | running =>
    obtain ⟨t, ht⟩ := runningMachineAlwaysSteps s hs
    exact absurd ht (h t)
  | halted c => exact runFor_halted hs n

theorem step_read_of_lt_bound (h : step s = .next t) {addr : Nat} (ha : addr < (s.reg boundIndex).toNat) :
    t.mem.read addr = s.mem.read addr := by
  obtain ⟨c, -, rfl, -⟩ | ⟨m, -, -, hresult⟩ := step_result h
  · rfl
  · exact hresult.read_of_lt_bound ha

/-- Settles O53, by induction on the number of steps: the first step keeps the bytes below R4, the rest of the run is a run
of its own. -/
theorem bytesBelowBoundarySurviveRun : Obligations.BytesBelowBoundarySurviveRun := by
  intro k n
  induction n with
  | zero => exact fun s _ addr _ => rfl
  | succ n ih =>
    intro s hbound addr haddr
    by_cases hstep : ∃ t, step s = .next t
    · obtain ⟨t, ht⟩ := hstep
      have hrest : ∀ j < n, k ≤ ((runFor j t).reg 4).toNat := fun j hj => runFor_next ht j ▸ hbound (j + 1) (by omega)
      have hfirst : addr < (s.reg boundIndex).toNat := Nat.lt_of_lt_of_le haddr (hbound 0 (by omega))
      rw [runFor_next ht, ih t hrest addr haddr, step_read_of_lt_bound ht hfirst]
    · rw [runFor_eq_self (not_exists.1 hstep)]

end Sys2Proof.Machine
end

section
/-! PROOFS of the family 10_state.md, the trace port (R36): two machines that differ in the trace port and its switch only, as
`withTrace` makes them, run alike. Each handler commutes with `withTrace`, so each instruction does, and then each step. -/

namespace Sys2Proof.Machine

/-- The machine with another trace switch and other records presented so far. -/
def withTrace (tr : Bool) (records : List TraceRecord) (s : State) : State :=
  { s with traceEnabled := tr, trace := records }

section Handlers

variable (tr : Bool) (records : List TraceRecord) (s : State)

theorem aluTwo_withTrace (f : Byte → Byte → Byte) (a b : Byte) :
    aluTwo f a b (withTrace tr records s) = withTrace tr records <$> aluTwo f a b s := by
  simp only [aluTwo, map_bind]
  rfl

theorem aluOne_withTrace (f : Byte → Byte) (a : Byte) :
    aluOne f a (withTrace tr records s) = withTrace tr records <$> aluOne f a s := by
  simp only [aluOne, map_bind]
  rfl

theorem aluCompare_withTrace (f : Byte → Byte → Byte) (a b : Byte) :
    aluCompare f a b (withTrace tr records s) = withTrace tr records <$> aluCompare f a b s := by
  simp only [aluCompare, map_bind]
  rfl

theorem ldiHandler_withTrace (a i : Byte) :
    ldiHandler a i (withTrace tr records s) = withTrace tr records <$> ldiHandler a i s := by
  simp only [ldiHandler, map_bind]
  rfl

theorem prnHandler_withTrace (a : Byte) :
    prnHandler a (withTrace tr records s) = withTrace tr records <$> prnHandler a s := by
  simp only [prnHandler, map_bind]
  rfl

theorem jmpHandler_withTrace (a : Byte) :
    jmpHandler a (withTrace tr records s) = withTrace tr records <$> jmpHandler a s := by
  simp only [jmpHandler, map_bind]
  rfl

theorem branchHandler_withTrace (taken : Bool) (a : Byte) :
    branchHandler taken a (withTrace tr records s) = withTrace tr records <$> branchHandler taken a s := by
  cases taken
  · simp only [branchHandler, map_bind]
    rfl
  · exact jmpHandler_withTrace tr records s a

theorem memWrite_withTrace (addr : Int) (v : Byte) :
    (withTrace tr records s).memWrite addr v = withTrace tr records <$> s.memWrite addr v := by
  unfold State.memWrite
  split <;> rfl

/-- The dump of a stack overflow shows `pc`, memory and the registers, not the trace port (60_exceptions.md R162). -/
theorem pushHandler_withTrace (a : Byte) :
    pushHandler a (withTrace tr records s) = withTrace tr records <$> pushHandler a s := by
  simp only [pushHandler, map_bind]
  refine bind_congr fun ra => bind_congr fun sp => bind_congr fun _ => bind_congr fun _ => ?_
  by_cases ho : s.pushOverflows = true
  · rw [if_pos ho]
    exact if_pos ho
  · rw [if_neg ho, map_bind]
    refine (if_neg ho).trans (bind_congr fun v => ?_)
    exact memWrite_withTrace tr records (s.setReg spIndex (BitVec.ofInt 8 s.pushAddress)) s.pushAddress v

theorem incrementSp_withTrace : (withTrace tr records s).incrementSp = withTrace tr records s.incrementSp := by
  unfold State.incrementSp
  rw [apply_ite (withTrace tr records)]
  rfl

theorem popHandler_withTrace (a : Byte) :
    popHandler a (withTrace tr records s) = withTrace tr records <$> popHandler a s := by
  simp only [popHandler, map_bind]
  refine bind_congr fun ra => bind_congr fun _ => bind_congr fun v => bind_congr fun _ => ?_
  exact congrArg Except.ok (incrementSp_withTrace tr records (s.setReg ra v))

end Handlers

variable {s t : State} {tr : Bool} {records : List TraceRecord}

theorem settle_withTrace {m : Mnemonic} {x y : Except HaltCause State} (hy : y = withTrace tr records <$> x)
    (h : settle m s x = .next t) : settle m (withTrace tr records s) y = .next (withTrace tr records t) := by
  subst hy
  rcases settle_cases h with ⟨u, rfl, rfl⟩ | ⟨c, rfl, rfl⟩ <;> rfl

/-- An instruction does the same whatever the trace port holds. -/
theorem exec_withTrace {i : Instr} (h : exec i s = .next t) :
    exec i (withTrace tr records s) = .next (withTrace tr records t) := by
  cases i with
  | ldi a v => exact settle_withTrace (ldiHandler_withTrace tr records s a v) h
  | prn a => exact settle_withTrace (prnHandler_withTrace tr records s a) h
  | hlt => exact settle_withTrace (s := s) (x := hltHandler s) rfl h
  | push a => exact settle_withTrace (pushHandler_withTrace tr records s a) h
  | pop a => exact settle_withTrace (popHandler_withTrace tr records s a) h
  | jmp a => exact settle_withTrace (jmpHandler_withTrace tr records s a) h
  | jeq a => exact settle_withTrace (branchHandler_withTrace tr records s (isE s.fl) a) h
  | jne a => exact settle_withTrace (branchHandler_withTrace tr records s (!isE s.fl) a) h
  | not a => exact settle_withTrace (aluOne_withTrace tr records s aluNot a) h
  | cmp a b => exact settle_withTrace (aluCompare_withTrace tr records s compareFlags a b) h
  | add a b => exact settle_withTrace (aluTwo_withTrace tr records s aluAdd a b) h
  | mul a b => exact settle_withTrace (aluTwo_withTrace tr records s aluMul a b) h
  | and a b => exact settle_withTrace (aluTwo_withTrace tr records s aluAnd a b) h
  | or a b => exact settle_withTrace (aluTwo_withTrace tr records s aluOr a b) h
  | xor a b => exact settle_withTrace (aluTwo_withTrace tr records s aluXor a b) h
  | shl a b => exact settle_withTrace (aluTwo_withTrace tr records s aluShl a b) h
  | shr a b => exact settle_withTrace (aluTwo_withTrace tr records s aluShr a b) h

theorem emitTrace_withTrace :
    (withTrace tr records s).emitTrace = withTrace tr (withTrace tr records s).emitTrace.trace s.emitTrace := rfl

/-- A step of one machine is matched by a step of the other, which presents records of its own. -/
theorem step_withTrace (h : step s = .next t) :
    ∃ records', step (withTrace tr records s) = .next (withTrace tr records' t) := by
  obtain ⟨hs, ⟨hpc, rfl⟩ | ⟨hpc, hop, rfl⟩ | ⟨hpc, m, hm, hexec⟩⟩ := step_cases h
  · exact ⟨_, step_fetchFault (s := withTrace tr records s) hs hpc⟩
  · exact ⟨_, step_unregistered (s := withTrace tr records s) hs hpc (registered_none.1 hop)⟩
  · refine ⟨(withTrace tr records s).emitTrace.trace, ?_⟩
    rw [step_registered (s := withTrace tr records s) hs hpc (registered_some hm).symm, emitTrace_withTrace]
    exact exec_withTrace hexec

/-- Settles O54, by induction on the number of steps over the matching of one step. -/
theorem tracingNeverChangesObservation : Obligations.TracingNeverChangesObservation := by
  intro n
  induction n with
  | zero => exact fun s tr records => rfl
  | succ n ih =>
    intro s tr records
    change (runFor (n + 1) (withTrace tr records s)).observe = (runFor (n + 1) s).observe
    cases hs : s.status with
    | halted c =>
      rw [runFor_halted hs, runFor_halted (s := withTrace tr records s) hs]
      rfl
    | running =>
      obtain ⟨t, ht⟩ := runningMachineAlwaysSteps s hs
      obtain ⟨records', ht'⟩ := step_withTrace (tr := tr) (records := records) ht
      rw [runFor_next ht, runFor_next ht']
      exact ih t tr records'

end Sys2Proof.Machine
end

section
/-! PROOFS of the family 20_memory.md, the canonical form: a canonical memory lists exactly the addresses that read as something
else than zero, so that reading alike makes two of them one list (R50, R51). -/

namespace Sys2Proof.Machine

/-- Rising addresses list each one once: a listed byte is the one that is read. -/
theorem Memory.read_of_mem {m : Memory} (h : m.Pairwise (fun c d => c.1 < d.1)) {a : Nat} {v : Byte} (hm : (a, v) ∈ m) :
    m.read a = v := by
  induction m with
  | nil => exact absurd hm List.not_mem_nil
  | cons c rest ih =>
    obtain ⟨hlt, hrest⟩ := List.pairwise_cons.1 h
    rcases List.mem_cons.1 hm with rfl | hm
    · exact if_pos rfl
    · exact (if_neg (hlt _ hm).ne).trans (ih hrest hm)

theorem Memory.mem_of_read {m : Memory} {a : Nat} (h : m.read a ≠ unlistedByte) : (a, m.read a) ∈ m := by
  induction m with
  | nil => exact absurd rfl h
  | cons c rest ih =>
    obtain ⟨b, w⟩ := c
    by_cases hb : b = a
    · simp [Memory.read, hb]
    · simp only [Memory.read, if_neg hb] at h ⊢
      exact List.mem_cons_of_mem _ (ih h)

theorem Memory.mem_iff_read {m : Memory} (h : m.wf) {c : Host.Cell} : c ∈ m ↔ m.read c.1 = c.2 ∧ c.2 ≠ unlistedByte := by
  constructor
  · exact fun hm => ⟨Memory.read_of_mem h.1 hm, (h.2 c hm).2⟩
  · rintro ⟨hread, hne⟩
    have hm : (c.1, m.read c.1) ∈ m := Memory.mem_of_read (hread ▸ hne)
    rwa [hread] at hm

theorem Memory.nodup_of_wf {m : Memory} (h : m.wf) : m.Nodup :=
  h.1.imp fun hlt => ne_of_apply_ne Prod.fst hlt.ne

/-- Settles O8: the two memories list the same cells, and rising addresses leave one order for them. -/
theorem canonicalMemoriesReadingAlikeAreEqual : Obligations.CanonicalMemoriesReadingAlikeAreEqual := by
  intro m n hm hn hread
  have hcells : m.Perm n := (List.perm_ext_iff_of_nodup (Memory.nodup_of_wf hm) (Memory.nodup_of_wf hn)).2 fun c => by
    rw [Memory.mem_iff_read hm, Memory.mem_iff_read hn, hread]
  exact hcells.eq_of_pairwise (fun c d _ _ hcd hdc => absurd hcd hdc.asymm) hm.1 hn.1

end Sys2Proof.Machine
end

section
/-! PROOFS of the families 10_state.md, reset values (R38, R39), and 70_reset_and_hazards.md, the load contract (R180, R181): the
constructed state, what `boot` answers for each reading of the lines, and how a line reads. -/

namespace Sys2Proof.Machine

/-- Settles O9, register by register. -/
theorem resetStateHoldsResetValues : Obligations.ResetStateHoldsResetValues :=
  ⟨by decide, by decide, fun _ => rfl, rfl, rfl, rfl, rfl⟩

/-- Settles O10: the two constructions differ in the marks only. -/
theorem unwrittenFaultsLeavesSixRegistersUnset : Obligations.UnwrittenFaultsLeavesSixRegistersUnset := by
  refine fun tr => ⟨fun r => ?_, rfl⟩
  revert r tr
  decide

section Boot

variable {p : RegReset} {tr : Bool} {text : List (List Char)} {program : List Byte}

theorem boot_error {e : LoadProblem} (h : programOfLines 0 text = .error e) :
    boot p tr (.lines text) = .refused (.outsideLoadContract e) := by
  simp [boot, h]

theorem boot_tooLong (h : programOfLines 0 text = .ok program) (hlen : 255 < program.length) :
    boot p tr (.lines text) = .refused (.outsideLoadContract (.tooLong program.length)) := by
  simp [boot, h, hlen]

theorem boot_ok (h : programOfLines 0 text = .ok program) (hlen : program.length ≤ 255) :
    boot p tr (.lines text) = .next ((State.constructed p tr).load program) := by
  simp [boot, h, hlen]

/-- A launch that begins has loaded some program, or could not read it and has halted. -/
theorem boot_next {src : LoadSource} {t : State} (h : boot p tr src = .next t) :
    (∃ program, t = (State.constructed p tr).load program) ∨ t = (State.constructed p tr).raise .ioError := by
  cases src with
  | unreadable => exact .inr (Host.Outcome.next.inj h).symm
  | lines text =>
    cases hp : programOfLines 0 text with
    | error e => simp [boot_error hp] at h
    | ok program =>
      by_cases hlen : program.length ≤ 255
      · exact .inl ⟨program, Host.Outcome.next.inj ((boot_ok hp hlen).symm.trans h) |>.symm⟩
      · simp [boot_tooLong hp (by omega)] at h

end Boot

theorem Memory.read_writeList_nil {program : List Byte} {addr : Nat} (ha : addr < 256) :
    (Memory.writeList [] 0 program).read addr = program.getD addr 0x00#8 := by
  rw [Memory.read_writeList [] 0 addr program ha, Nat.zero_add, Nat.sub_zero]
  split
  · rfl
  next hout => rw [List.getD_eq_default _ _ (by omega), Memory.read_nil, unlistedByte]

/-- Settles O11: the load writes memory and R4, and the rest is as constructed. -/
theorem loadPlacesProgramAndItsLength : Obligations.LoadPlacesProgramAndItsLength := by
  intro p tr text program hp hlen
  refine ⟨_, boot_ok hp hlen, fun addr ha => Memory.read_writeList_nil ha, ?_, ?_, fun r hr => ?_, rfl, rfl, rfl,
    rfl, rfl, rfl⟩
  · simpa [State.load, boundIndex_eq] using (by omega : program.length < 256)
  · simp [State.load, boundIndex_eq]
  · exact sameReg_setReg_of_ne (s := (State.constructed p tr).setMem _) _ hr.symm

/-- Settles O13: the first bad line stops the reading of the lines, and the loader refuses what the reading names and what
is too long. -/
theorem launchOutsideLoadContractRefused : Obligations.LaunchOutsideLoadContractRefused := by
  intro p tr text
  refine ⟨?_, fun e => boot_error, fun program => boot_tooLong⟩
  rintro good line rest rfl hgood hline
  rw [boot_error (programOfLines_bad 0 hgood hline), Nat.zero_add]

theorem State.Inv.constructed (p : RegReset) (tr : Bool) : (State.constructed p tr).Inv := by
  cases p <;> exact ⟨Memory.wf_nil, Nat.zero_le _, List.mem_cons_self, rfl, rfl⟩

theorem State.Inv.load {s : State} (h : s.Inv) (program : List Byte) : (s.load program).Inv :=
  ⟨Memory.wf_writeList 0 program h.mem_wf, h.pc_le, h.fl_mem, by simp [State.load],
    by simpa [State.load, boundIndex_eq, spIndex_eq] using h.sp_set⟩

/-- Settles O49: the state after reset is a constructed one. -/
theorem resetMeetsInvariant : Obligations.ResetMeetsInvariant := State.Inv.constructed .zero false

/-- Settles O50: a launch loads a program into the constructed machine, or halts it. -/
theorem bootMeetsInvariant : Obligations.BootMeetsInvariant := by
  intro p tr src t h
  obtain ⟨program, rfl⟩ | rfl := boot_next h
  · exact (State.Inv.constructed p tr).load program
  · exact (State.Inv.constructed p tr).raise .ioError

end Sys2Proof.Machine
end

section
/-! PROOFS of the family 70_reset_and_hazards.md, the lines (R181, D18): the binary value of a byte's own digits, what a line in
its parts reads as, and that every line has such parts. -/

namespace Sys2Proof.Machine

/-- The digits of the low `n` bits by falling place have the value of those bits. -/
theorem binaryValue_low_bits (x n : Nat) :
    binaryValue ((List.range n).map fun k => if x.testBit (n - 1 - k) then '1' else '0') = x % 2 ^ n := by
  induction n with
  | zero => simp [binaryValue, Nat.mod_one]
  | succ n ih =>
    have hlow : ∀ k, n + 1 - 1 - (k + 1) = n - 1 - k := by omega
    rw [List.range_succ_eq_map, List.map_cons, List.map_map, binaryValue, List.length_map, List.length_range,
      Nat.mod_pow_succ, ← ih, ← Nat.toNat_testBit, Nat.add_comm]
    simp only [Function.comp_def, Nat.succ_eq_add_one, hlow]
    cases hbit : x.testBit n <;> simp [hbit]

theorem binaryValue_byteDigits (v : Byte) : binaryValue (byteDigits v) = v.toNat :=
  (binaryValue_low_bits v.toNat 8).trans (Nat.mod_eq_of_lt v.isLt)

theorem byteDigits_binary (v : Byte) : ∀ c ∈ byteDigits v, c = '0' ∨ c = '1' := by
  intro c hc
  obtain ⟨k, -, rfl⟩ := List.mem_map.1 hc
  cases v.getLsbD (7 - k) <;> simp

section Parts

variable {before text after comment : List Char}

/-- A row of binary digits can stand between the parts of a line without text. -/
theorem LineParts.insert_digits (h : LineParts before [] after comment) (ht : ∀ c ∈ text, c = '0' ∨ c = '1') :
    LineParts before text after comment := by
  have hdark : ∀ c ∈ text, c.isWhitespace = false := fun c hc => by
    obtain rfl | rfl := ht c hc <;> rfl
  exact ⟨h.blank_before, h.blank_after, h.comment_hash, fun hc => by simpa using ht _ hc,
    fun c hc => hdark c (List.mem_of_head? hc), fun c hc => hdark c (List.mem_of_getLast? hc)⟩

/-- A row of binary digits of a value up to 255 reads as that value. -/
theorem LineParts.read_digits (h : LineParts before text after comment) (hne : text ≠ [])
    (ht : ∀ c ∈ text, c = '0' ∨ c = '1') {v : Byte} (hv : binaryValue text = v.toNat) :
    readLine (before ++ text ++ after ++ comment) = .literal v := by
  have hdigits : ¬ ∃ c ∈ text, c ≠ '0' ∧ c ≠ '1' := fun ⟨c, hc, h0, h1⟩ => (ht c hc).elim h0 h1
  rw [h.read, if_neg hne, if_neg hdigits, hv, if_pos v.isLt, BitVec.ofNat_toNat, BitVec.setWidth_eq]

theorem LineParts.read_notLiteral (h : LineParts before text after comment) (hne : text ≠ [])
    (ht : (∃ c ∈ text, c ≠ '0' ∧ c ≠ '1') ∨ 255 < binaryValue text) :
    readLine (before ++ text ++ after ++ comment) = .notLiteral := by
  rw [h.read, if_neg hne]
  obtain hother | hbig := ht
  · rw [if_pos hother]
  · rw [if_neg (show ¬ binaryValue text < 256 by omega), ite_self]

end Parts

/-- Settles O12: a byte's digits are a literal of its value, and the line without them has no text. -/
theorem binaryLineReadsAsItsByte : Obligations.BinaryLineReadsAsItsByte := by
  intro before after comment h
  refine ⟨fun v => ?_, ?_⟩
  · exact (h.insert_digits (byteDigits_binary v)).read_digits (by simp [byteDigits]) (byteDigits_binary v)
      (binaryValue_byteDigits v)
  · have hread := h.read
    rwa [List.append_nil] at hread

theorem head?_dropWhile_eq_some {p : Char → Bool} {l : List Char} {c : Char} (h : (l.dropWhile p).head? = some c) :
    p c = false := by
  simpa [h] using List.head?_dropWhile_not p l

theorem getLast?_rdropWhile_eq_some {p : Char → Bool} {l : List Char} {c : Char}
    (h : (l.rdropWhile p).getLast? = some c) : p c = false :=
  head?_dropWhile_eq_some (l := l.reverse) (by simpa [List.rdropWhile] using h)

/-- White space taken off both ends of a text. -/
theorem exists_trimmed (body : List Char) :
    ∃ before text after, body = before ++ text ++ after ∧ (∀ c ∈ before, c.isWhitespace = true) ∧
      (∀ c ∈ after, c.isWhitespace = true) ∧ (∀ c, text.head? = some c → c.isWhitespace = false) ∧
      (∀ c, text.getLast? = some c → c.isWhitespace = false) := by
  have hrest : (body.dropWhile Char.isWhitespace).rdropWhile Char.isWhitespace ++
      (body.dropWhile Char.isWhitespace).rtakeWhile Char.isWhitespace = body.dropWhile Char.isWhitespace :=
    List.rdropWhile_append_rtakeWhile
  refine ⟨body.takeWhile Char.isWhitespace, (body.dropWhile Char.isWhitespace).rdropWhile Char.isWhitespace,
    (body.dropWhile Char.isWhitespace).rtakeWhile Char.isWhitespace, ?_, fun _ => List.mem_takeWhile_imp,
    fun _ => List.mem_rtakeWhile_imp, fun c hc => ?_, fun c => getLast?_rdropWhile_eq_some⟩
  · rw [List.append_assoc, hrest, List.takeWhile_append_dropWhile]
  · refine head?_dropWhile_eq_some (l := body) ?_
    rw [← hrest, List.head?_append, hc, Option.some_or]

/-- Every line has parts: the comment is what stands from the first number sign on. -/
theorem exists_lineParts (line : List Char) :
    ∃ before text after comment, line = before ++ text ++ after ++ comment ∧ LineParts before text after comment := by
  obtain ⟨before, text, after, hbody, hbefore, hafter, hhead, hlast⟩ := exists_trimmed (line.takeWhile (· ≠ '#'))
  refine ⟨before, text, after, line.dropWhile (· ≠ '#'), ?_, hbefore, hafter, ?_, fun hhash => ?_, hhead, hlast⟩
  · rw [← hbody, List.takeWhile_append_dropWhile]
  · cases hcomment : line.dropWhile (· ≠ '#') with
    | nil => exact .inl rfl
    | cons c cs =>
      have hc := head?_dropWhile_eq_some (p := (· ≠ '#')) (l := line) (by rw [hcomment]; rfl)
      exact .inr (by simpa using hc)
  · have hmem : '#' ∈ line.takeWhile (· ≠ '#') := by rw [hbody]; simp [hhash]
    simpa using List.mem_takeWhile_imp hmem

/-- Settles O57: each of the three readings of a text is decided by its characters and its value, and they exclude each
other. -/
theorem lineTextDecidesLiteral : Obligations.LineTextDecidesLiteral := by
  refine ⟨fun before text after comment h hne => ?_, exists_lineParts⟩
  by_cases hbad : (∃ c ∈ text, c ≠ '0' ∧ c ≠ '1') ∨ 255 < binaryValue text
  · rw [h.read_notLiteral hne hbad]
    refine ⟨iff_of_true rfl hbad, fun v => iff_of_false nofun fun ⟨hdigits, hv⟩ => ?_⟩
    obtain ⟨c, hc, h0, h1⟩ | hbig := hbad
    · exact (hdigits c hc).elim h0 h1
    · have := v.isLt
      omega
  · obtain ⟨hdigits, hsmall⟩ := not_or.1 hbad
    have hdigits : ∀ c ∈ text, c = '0' ∨ c = '1' := fun c hc => by
      by_contra hother
      exact hdigits ⟨c, hc, not_or.1 hother⟩
    have hvalue : (BitVec.ofNat 8 (binaryValue text)).toNat = binaryValue text := by
      rw [BitVec.toNat_ofNat, Nat.mod_eq_of_lt (by omega)]
    rw [h.read_digits hne hdigits hvalue.symm]
    refine ⟨iff_of_false nofun hbad, fun v => ?_⟩
    rw [LineReading.literal.injEq, ← BitVec.toNat_inj, hvalue]
    exact (and_iff_right hdigits).symm

end Sys2Proof.Machine
end

section
/-! PROOFS of the family 60_exceptions.md, the order of faults (R165, R168): handlers check their operands and read their
registers one after another, so the first operand above 7 decides, and after the operands the first unset register. -/

namespace Sys2Proof.Machine

/-- The operand byte selects no register. -/
abbrev aboveSeven (b : Byte) : Bool := decide (7 < b.toNat)

theorem aboveSeven_regByte (r : Reg) : ¬ aboveSeven (regByte r) = true := by
  revert r; decide

/-- The register that an operand byte selects, as `readOrder` names it. -/
abbrev operandReg (b : Byte) : Reg := Fin.ofNat 8 b.toNat

theorem regIndex_of_selects {b : Byte} (h : selectsRegister b = true) : regIndex b = .ok (operandReg b) := by
  revert b; decide

section

variable {α : Type} {s : State} {r ra rb : Reg} {a b c : Byte} {f : Byte → Byte → Byte}

/-- The check of the first of the operands: it faults where that one is above 7, and leaves the others to the rest. -/
theorem regIndex_bind_of_find? {k : Reg → Except HaltCause α} {ops : List Byte}
    (h : (a :: ops).find? aboveSeven = some c)
    (hk : ∀ r, ops.find? aboveSeven = some c → k r = .error (.registerIndexFault c)) :
    (regIndex a >>= k) = .error (.registerIndexFault c) := by
  obtain ⟨r, rfl⟩ | ha := regByte_or_high a
  · rw [List.find?_cons_of_neg (aboveSeven_regByte r)] at h
    rw [regIndex_regByte, ok_bind, hk r h]
  · rw [List.find?_cons_of_pos (show aboveSeven a = true from decide_eq_true ha)] at h
    rw [← Option.some.inj h, regIndex_high ha, error_bind]

/-- The read of the first of the registers, likewise. -/
theorem readReg_bind_of_find? {k : Byte → Except HaltCause α} {l : List Reg}
    (h : (ra :: l).find? s.isUnset = some r)
    (hk : ∀ v, l.find? s.isUnset = some r → k v = .error (.unsetRegisterRead r)) :
    (s.readReg ra >>= k) = .error (.unsetRegisterRead r) := by
  cases hra : s.isUnset ra with
  | true =>
    rw [List.find?_cons_of_pos hra] at h
    rw [← Option.some.inj h, readReg_unset hra, error_bind]
  | false =>
    rw [List.find?_cons_of_neg (by simp [hra])] at h
    rw [readReg_set hra, ok_bind, hk _ h]

theorem regIndex_bind_of_single {k : Reg → Except HaltCause α} (h : [a].find? aboveSeven = some c) :
    (regIndex a >>= k) = .error (.registerIndexFault c) :=
  regIndex_bind_of_find? h fun _ => nofun

theorem regIndex_bind_of_pair {k : Reg → Reg → Except HaltCause α} (h : [a, b].find? aboveSeven = some c) :
    (regIndex a >>= fun ra => regIndex b >>= k ra) = .error (.registerIndexFault c) :=
  regIndex_bind_of_find? h fun _ => regIndex_bind_of_single

theorem readReg_bind_of_single {k : Byte → Except HaltCause α} (h : [ra].find? s.isUnset = some r) :
    (s.readReg ra >>= k) = .error (.unsetRegisterRead r) :=
  readReg_bind_of_find? h fun _ => nofun

theorem readReg_bind_of_pair {k : Byte → Byte → Except HaltCause α} (h : [ra, rb].find? s.isUnset = some r) :
    (s.readReg ra >>= fun x => s.readReg rb >>= k x) = .error (.unsetRegisterRead r) :=
  readReg_bind_of_find? h fun _ => readReg_bind_of_single

theorem regIndex_of_single (h : [a].all selectsRegister = true) : regIndex a = .ok (operandReg a) :=
  regIndex_of_selects (List.all_eq_true.1 h a (by simp))

theorem regIndex_of_pair (h : [a, b].all selectsRegister = true) :
    regIndex a = .ok (operandReg a) ∧ regIndex b = .ok (operandReg b) :=
  ⟨regIndex_of_selects (List.all_eq_true.1 h a (by simp)), regIndex_of_selects (List.all_eq_true.1 h b (by simp))⟩

theorem aluTwo_unset (hw : [a, b].all selectsRegister = true)
    (h : [operandReg a, operandReg b].find? s.isUnset = some r) : aluTwo f a b s = .error (.unsetRegisterRead r) := by
  obtain ⟨ha, hb⟩ := regIndex_of_pair hw
  rw [aluTwo, ha, hb]
  exact readReg_bind_of_pair h

theorem aluCompare_unset (hw : [a, b].all selectsRegister = true)
    (h : [operandReg a, operandReg b].find? s.isUnset = some r) :
    aluCompare f a b s = .error (.unsetRegisterRead r) := by
  obtain ⟨ha, hb⟩ := regIndex_of_pair hw
  rw [aluCompare, ha, hb]
  exact readReg_bind_of_pair h

theorem aluOne_unset {g : Byte → Byte} (hw : [a].all selectsRegister = true)
    (h : [operandReg a].find? s.isUnset = some r) : aluOne g a s = .error (.unsetRegisterRead r) := by
  rw [aluOne, regIndex_of_single hw]
  exact readReg_bind_of_single h

theorem prnHandler_unset (hw : [a].all selectsRegister = true) (h : [operandReg a].find? s.isUnset = some r) :
    prnHandler a s = .error (.unsetRegisterRead r) := by
  rw [prnHandler, regIndex_of_single hw]
  exact readReg_bind_of_single h

theorem jmpHandler_unset (hw : [a].all selectsRegister = true) (h : [operandReg a].find? s.isUnset = some r) :
    jmpHandler a s = .error (.unsetRegisterRead r) := by
  rw [jmpHandler, regIndex_of_single hw]
  exact readReg_bind_of_single h

/-- A branch that is taken does what JMP does, and one that is not reads nothing. -/
theorem branchHandler_unset {taken : Bool} (hw : [a].all selectsRegister = true)
    (h : (if taken then [operandReg a] else []).find? s.isUnset = some r) :
    branchHandler taken a s = .error (.unsetRegisterRead r) := by
  cases taken with
  | false => exact nomatch h
  | true => exact jmpHandler_unset hw h

theorem popHandler_unset (hw : [a].all selectsRegister = true) (h : [spIndex].find? s.isUnset = some r) :
    popHandler a s = .error (.unsetRegisterRead r) := by
  rw [popHandler, regIndex_of_single hw]
  exact readReg_bind_of_single h

/-- PUSH reads its three registers before the overflow test (log entry 15). -/
theorem pushHandler_unset (hw : [a].all selectsRegister = true)
    (h : [spIndex, boundIndex, operandReg a].find? s.isUnset = some r) :
    pushHandler a s = .error (.unsetRegisterRead r) := by
  rw [pushHandler, regIndex_of_single hw]
  exact readReg_bind_of_find? h fun _ => readReg_bind_of_pair

theorem readOrder_jne (a : Byte) (s : State) :
    readOrder (.jne a) s = if !isE s.fl then [operandReg a] else [] := by
  unfold readOrder
  cases isE s.fl <;> rfl

end

/-- Settles O20: every handler with register operands begins with their checks, in the order of `regOperands`. -/
theorem registerOperandAboveSevenHalts : Obligations.RegisterOperandAboveSevenHalts := by
  intro i s c h
  cases i with
  | hlt => exact nomatch h
  | ldi a v => exact congrArg (settle .ldi s) (regIndex_bind_of_single h)
  | prn a => exact congrArg (settle .prn s) (regIndex_bind_of_single h)
  | push a => exact congrArg (settle .push s) (regIndex_bind_of_single h)
  | pop a => exact congrArg (settle .pop s) (regIndex_bind_of_single h)
  | jmp a => exact congrArg (settle .jmp s) (regIndex_bind_of_single h)
  | jeq a => exact congrArg (settle .jeq s) (regIndex_bind_of_single h)
  | jne a => exact congrArg (settle .jne s) (regIndex_bind_of_single h)
  | not a => exact congrArg (settle .not s) (regIndex_bind_of_single h)
  | cmp a b => exact congrArg (settle .cmp s) (regIndex_bind_of_pair h)
  | add a b => exact congrArg (settle .add s) (regIndex_bind_of_pair h)
  | mul a b => exact congrArg (settle .mul s) (regIndex_bind_of_pair h)
  | and a b => exact congrArg (settle .and s) (regIndex_bind_of_pair h)
  | or a b => exact congrArg (settle .or s) (regIndex_bind_of_pair h)
  | xor a b => exact congrArg (settle .xor s) (regIndex_bind_of_pair h)
  | shl a b => exact congrArg (settle .shl s) (regIndex_bind_of_pair h)
  | shr a b => exact congrArg (settle .shr s) (regIndex_bind_of_pair h)

/-- Settles O21: after the operands' checks every handler begins with its reads, in the order of `readOrder`. -/
theorem unsetRegisterReadHalts : Obligations.UnsetRegisterReadHalts := by
  intro i s r hw h
  cases i with
  | ldi a v => exact nomatch h
  | hlt => exact nomatch h
  | prn a => exact congrArg (settle .prn s) (prnHandler_unset hw h)
  | push a => exact congrArg (settle .push s) (pushHandler_unset hw h)
  | pop a => exact congrArg (settle .pop s) (popHandler_unset hw h)
  | jmp a => exact congrArg (settle .jmp s) (jmpHandler_unset hw h)
  | jeq a => exact congrArg (settle .jeq s) (branchHandler_unset hw h)
  | jne a => exact congrArg (settle .jne s) (branchHandler_unset hw (readOrder_jne a s ▸ h))
  | not a => exact congrArg (settle .not s) (aluOne_unset hw h)
  | cmp a b => exact congrArg (settle .cmp s) (aluCompare_unset hw h)
  | add a b => exact congrArg (settle .add s) (aluTwo_unset hw h)
  | mul a b => exact congrArg (settle .mul s) (aluTwo_unset hw h)
  | and a b => exact congrArg (settle .and s) (aluTwo_unset hw h)
  | or a b => exact congrArg (settle .or s) (aluTwo_unset hw h)
  | xor a b => exact congrArg (settle .xor s) (aluTwo_unset hw h)
  | shl a b => exact congrArg (settle .shl s) (aluTwo_unset hw h)
  | shr a b => exact congrArg (settle .shr s) (aluTwo_unset hw h)

end Sys2Proof.Machine
end

section
/-! PROOFS of the families 41_alu.md to 44_control_flow.md, results: what each handler returns where its registers are set, and
with the pc advance the exact state that each instruction ends in. -/

namespace Sys2Proof.Machine

section Handlers

variable {s : State} {r : Reg}

theorem ldiHandler_regByte (r : Reg) (v : Byte) (s : State) : ldiHandler (regByte r) v s = .ok (s.setReg r v) := by
  simp [ldiHandler]

theorem prnHandler_set (hr : s.isUnset r = false) : prnHandler (regByte r) s = .ok (s.emitOut (s.reg r)) := by
  simp [prnHandler, hr]

theorem jmpHandler_set (hr : s.isUnset r = false) : jmpHandler (regByte r) s = .ok (s.setPc (s.reg r).toNat) := by
  simp [jmpHandler, hr]

/-- The register of a branch is read, and needs to be set, only when it is taken. -/
theorem branchHandler_set {taken : Bool} (hr : taken = true → s.isUnset r = false) :
    branchHandler taken (regByte r) s = .ok (s.setPc (if taken then (s.reg r).toNat else s.pc + 2)) := by
  cases taken with
  | false => simp [branchHandler]
  | true => exact jmpHandler_set (hr rfl)

theorem popHandler_set (h7 : s.isUnset spIndex = false) :
    popHandler (regByte r) s = .ok (s.setReg r (s.mem.read (s.reg spIndex).toNat)).incrementSp := by
  have h7' : (s.setReg r (s.mem.read (s.reg spIndex).toNat)).isUnset spIndex = false := by simp [h7]
  simp only [popHandler, regIndex_regByte, popAddress_read, ok_bind, readReg_set h7, readReg_set h7', pure_ok]

section Push

variable (h7 : s.isUnset spIndex = false) (h4 : s.isUnset boundIndex = false) (hr : s.isUnset r = false)

include h7 h4 hr

theorem pushHandler_overflow (ho : s.pushOverflows = true) :
    pushHandler (regByte r) s = .error (.stackOverflow (s.reg spIndex) s.traceRecord) := by
  simp only [pushHandler, regIndex_regByte, ok_bind, readReg_set h7, readReg_set h4, readReg_set hr, if_pos ho]

theorem pushHandler_set (ho : s.pushOverflows = false) :
    pushHandler (regByte r) s = .ok ((s.setReg spIndex (BitVec.ofInt 8 s.pushAddress)).setMem
      (s.mem.write s.pushAddress.toNat ((s.setReg spIndex (BitVec.ofInt 8 s.pushAddress)).reg r))) := by
  obtain ⟨hlow, hhigh, -⟩ := pushAddress_range ho
  have hr' : (s.setReg spIndex (BitVec.ofInt 8 s.pushAddress)).isUnset r = false := by simp [hr]
  simp only [pushHandler, regIndex_regByte, ok_bind, readReg_set h7, readReg_set h4, readReg_set hr, readReg_set hr',
    ho, Bool.false_eq_true, if_false]
  exact memWrite_ok.2 ⟨⟨hlow, by omega⟩, rfl⟩

end Push

end Handlers

section Settle

variable {m : Mnemonic} {s u : State} {x : Except HaltCause State}

/-- The end of an instruction that completed, where the opcode leaves `pc` to the loop. -/
theorem settle_loop (hm : m.handlerSetsPc = false) (hx : x = .ok u) :
    settle m s x = .next (u.setPc (u.pc + 1 + m.operandBytes)) := by
  rw [hx, settle_ok, advance_loop u hm]

/-- The end of an instruction that set `pc` itself. -/
theorem settle_handler (hm : m.handlerSetsPc = true) (hx : x = .ok u) : settle m s x = .next u := by
  rw [hx, settle_ok, advance_handler u hm]

theorem settle_aluTwo {f : Byte → Byte → Byte} {ra rb : Reg} {v : Byte} (hm : m.handlerSetsPc = false)
    (hn : m.operandBytes = 2) (hra : s.isUnset ra = false) (hrb : s.isUnset rb = false)
    (hv : f (s.reg ra) (s.reg rb) = v) :
    settle m s (aluTwo f (regByte ra) (regByte rb) s) =
      .next { s with regs := s.regs.set ra v, unset := s.unset.set ra false, pc := s.pc + 3 } := by
  rw [settle_loop hm (aluTwo_set f hra hrb), hn, hv]
  rfl

end Settle

/-- Settles O26: the operand check passes and the loop advances by the opcode byte's own count. -/
theorem ldiLoadsLiteral : Obligations.LdiLoadsLiteral :=
  fun r v s => settle_loop (m := .ldi) rfl (ldiHandler_regByte r v s)

/-- Settles O27: the set register's value is emitted, then the loop advances. -/
theorem prnEmitsRegister : Obligations.PrnEmitsRegister :=
  fun _ _ hr => settle_loop (m := .prn) rfl (prnHandler_set hr)

/-- Settles O28: the byte 0x01 is HLT's whatever follows it. -/
theorem hltHaltsWithStatusZero : Obligations.HltHaltsWithStatusZero := by
  refine ⟨exec_hlt, rfl, fun s hs hpc hop => ⟨_, ?_, rfl, step_halted rfl⟩⟩
  rw [step_registered (m := .hlt) hs hpc hop]
  exact exec_hlt s.emitTrace

/-- Above the boundary PUSH's address is the decremented SP as a natural number. -/
theorem pushAddress_eq {s : State} (ho : s.pushOverflows = false) : s.pushAddress = (((s.reg 7).toNat - 1 : Nat) : Int) := by
  have hsp := pushOverflows_false_iff.1 ho
  simp only [State.pushAddress, spIndex_eq]
  omega

theorem exec_push_stores {r : Reg} {s : State} (h7 : s.isUnset spIndex = false) (h4 : s.isUnset boundIndex = false)
    (hr : s.isUnset r = false) (ho : s.pushOverflows = false) :
    exec (.push (regByte r)) s =
      .next { s with
        regs := s.regs.set 7 (BitVec.ofNat 8 ((s.reg 7).toNat - 1))
        unset := s.unset.set 7 false
        mem := s.mem.write ((s.reg 7).toNat - 1) (if r = 7 then BitVec.ofNat 8 ((s.reg 7).toNat - 1) else s.reg r)
        pc := s.pc + 2 } := by
  have hpush := settle_loop (m := .push) (s := s) rfl (pushHandler_set h7 h4 hr ho)
  simp only [pushAddress_eq ho, BitVec.ofInt_natCast, Int.toNat_natCast, State.reg_setReg, spIndex_eq,
    @eq_comm Reg 7 r] at hpush
  exact hpush

theorem exec_push_overflows {r : Reg} {s : State} (h7 : s.isUnset spIndex = false) (h4 : s.isUnset boundIndex = false)
    (hr : s.isUnset r = false) (ho : s.pushOverflows = true) :
    exec (.push (regByte r)) s = .next (s.raise (.stackOverflow (s.reg 7) s.traceRecord)) :=
  congrArg (settle .push s) (pushHandler_overflow h7 h4 hr ho)

/-- Settles O29: `x[7] - 1` at least `x[4]` is PUSH that does not overflow. -/
theorem pushStoresAtDecrementedSp : Obligations.PushStoresAtDecrementedSp :=
  fun _ _ h7 h4 hr hsp => exec_push_stores h7 h4 hr (pushOverflows_false_iff.2 hsp)

/-- Settles O30: `x[7] - 1` below `x[4]` is PUSH that overflows. -/
theorem pushBelowBoundaryOverflows : Obligations.PushBelowBoundaryOverflows :=
  fun _ _ h7 h4 hr hsp => ⟨exec_push_overflows h7 h4 hr (pushOverflows_iff.2 hsp), rfl⟩

/-- Settles O31: the write of the popped byte comes before the increment, which reads it back for R7. -/
theorem popLoadsAndSaturates : Obligations.PopLoadsAndSaturates := by
  intro r s h7 v bump
  have hbump : ∀ u : State, u.incrementSp.reg 7 = bump (u.reg 7) := fun u => by
    simp [bump, spIndex_eq, stackTop]
  refine ⟨_, settle_loop (m := .pop) rfl (popHandler_set h7), by simp, by simp [Mnemonic.operandBytes], fun hr => ⟨?_, ?_⟩,
    ?_, ?_, fun q hq hq7 => ?_, by simp, by simp, by simp [samePorts]⟩
  · simp [spIndex_eq, hr.symm, v]
  · simp [hbump, hr]
  · rintro rfl
    simp [hbump, v, spIndex_eq]
  · simp
  · simp [sameReg, spIndex_eq, hq.symm, hq7.symm]

/-- Settles O32: the handler sets `pc` and the loop leaves it. -/
theorem jmpSetsPcToRegister : Obligations.JmpSetsPcToRegister :=
  fun _ _ hr => settle_handler (m := .jmp) rfl (jmpHandler_set hr)

/-- Settles O33: JEQ is the branch taken where E is set. -/
theorem jeqBranchesOnEqual : Obligations.JeqBranchesOnEqual :=
  fun _ _ hr => settle_handler (m := .jeq) rfl (branchHandler_set hr)

/-- Settles O34: JNE is taken where E is clear. -/
theorem jneBranchesOnNotEqual : Obligations.JneBranchesOnNotEqual := by
  intro r s hr
  have hjne : exec (.jne (regByte r)) s = .next (s.setPc (if !isE s.fl then (s.reg r).toNat else s.pc + 2)) :=
    settle_handler (m := .jne) rfl (branchHandler_set fun ht => hr (by simpa [isE] using ht))
  rw [hjne, State.setPc, isE]
  cases s.fl.getLsbD 0 <;> rfl

theorem aluAdd_eq (x y : Byte) : aluAdd x y = x + y := BitVec.eq_of_toNat_eq (by simp [aluAdd])

theorem aluMul_eq (x y : Byte) : aluMul x y = x * y := BitVec.eq_of_toNat_eq (by simp [aluMul])

theorem clamp_toNat (x : Byte) : clamp x.toNat = x := by simp [clamp]

theorem aluAnd_eq (x y : Byte) : aluAnd x y = x &&& y := by rw [aluAnd, ← BitVec.toNat_and, clamp_toNat]

theorem aluOr_eq (x y : Byte) : aluOr x y = x ||| y := by rw [aluOr, ← BitVec.toNat_or, clamp_toNat]

theorem aluXor_eq (x y : Byte) : aluXor x y = x ^^^ y := by rw [aluXor, ← BitVec.toNat_xor, clamp_toNat]

theorem aluNot_eq (x : Byte) : aluNot x = ~~~x := by rw [aluNot, ← clamp_toNat (~~~x), BitVec.toNat_not]

/-- A left shift by eight or more leaves no bit (41_alu.md R118). -/
theorem aluShl_eq (x y : Byte) : aluShl x y = if y.toNat < 8 then x <<< y.toNat else 0x00#8 := by
  have hshift : aluShl x y = x <<< y.toNat :=
    BitVec.eq_of_toNat_eq (by rw [aluShl_eq_clamp_shiftLeft, toNat_clamp, BitVec.toNat_shiftLeft])
  split
  · exact hshift
  next hge => rw [hshift, BitVec.shiftLeft_eq_zero (by omega)]

theorem aluShr_eq (x y : Byte) : aluShr x y = if y.toNat < 8 then x >>> y.toNat else 0x00#8 := by
  have hshift : aluShr x y = x >>> y.toNat := by
    rw [aluShr_eq_clamp_shiftRight, ← BitVec.toNat_ushiftRight, clamp_toNat]
  split
  · exact hshift
  next hge => rw [hshift, BitVec.ushiftRight_eq_zero (by omega)]

/-- Settles O35: the clamp is the wrap of the 8-bit sum and product. -/
theorem addAndMulWrapModulo256 : Obligations.AddAndMulWrapModulo256 :=
  fun _ _ _ hra hrb =>
    ⟨settle_aluTwo (m := .add) rfl rfl hra hrb (aluAdd_eq _ _), settle_aluTwo (m := .mul) rfl rfl hra hrb (aluMul_eq _ _)⟩

/-- Settles O36: a bitwise result of two bytes fits a byte, so that the clamp leaves it. -/
theorem andOrXorActBitwise : Obligations.AndOrXorActBitwise :=
  fun _ _ _ hra hrb =>
    ⟨settle_aluTwo (m := .and) rfl rfl hra hrb (aluAnd_eq _ _), settle_aluTwo (m := .or) rfl rfl hra hrb (aluOr_eq _ _),
      settle_aluTwo (m := .xor) rfl rfl hra hrb (aluXor_eq _ _)⟩

/-- Settles O37: `255 - x` is the complement of an 8-bit value. -/
theorem notComplements : Obligations.NotComplements := by
  intro r s hr
  rw [← aluNot_eq]
  exact settle_loop (m := .not) rfl (aluOne_set aluNot hr)

/-- Settles O38: both shifts move by the whole amount, and eight or more leave no bit. -/
theorem shiftsUseWholeAmount : Obligations.ShiftsUseWholeAmount :=
  fun _ _ _ hra hrb =>
    ⟨settle_aluTwo (m := .shl) rfl rfl hra hrb (aluShl_eq _ _), settle_aluTwo (m := .shr) rfl rfl hra hrb (aluShr_eq _ _)⟩

/-- The flags byte says which of the three orders of the two values holds (41_alu.md R120). -/
theorem compareFlags_iff (x y : Byte) :
    (compareFlags x y = 0x01#8 ↔ x.toNat = y.toNat) ∧ (compareFlags x y = 0x02#8 ↔ y.toNat < x.toNat) ∧
      (compareFlags x y = 0x04#8 ↔ x.toNat < y.toNat) ∧ compareFlags x y ∈ [0x01#8, 0x02#8, 0x04#8] := by
  unfold compareFlags
  split
  next heq => simp [flE, heq]
  next hne =>
    split
    next hgt => simp [flG, hne, hgt, hgt.le]
    next hle => simp [flL, hne]; omega

/-- Settles O39: CMP's flags byte is `compareFlags` of the two values. -/
theorem cmpSetsExactlyOneFlag : Obligations.CmpSetsExactlyOneFlag :=
  fun ra rb s hra hrb =>
    ⟨compareFlags (s.reg ra) (s.reg rb), settle_loop (m := .cmp) rfl (aluCompare_set compareFlags hra hrb),
      compareFlags_iff _ _⟩

end Sys2Proof.Machine
end

section
/-! PROOFS of the family 10_state.md, what each form leaves (R24, R28, R33): the frames of the instructions, from what each field
can become in one instruction. -/

namespace Sys2Proof.Machine

/-- Settles O41: each of these forms writes the register of operand 1 and nothing else. -/
theorem registerWritingFormsFrame : Obligations.RegisterWritingFormsFrame := by
  intro a b i s t hi h
  have hresult := exec_result h
  have hform : i.mnemonic ≠ .cmp ∧ i.mnemonic ≠ .push ∧ i.mnemonic ≠ .prn ∧ i ≠ .hlt ∧
      ∀ r, writesReg i r → regByte r = a := by
    simp only [List.mem_cons, List.not_mem_nil, or_false] at hi
    obtain rfl | rfl | rfl | rfl | rfl | rfl | rfl | rfl | rfl := hi <;>
      exact ⟨nofun, nofun, nofun, nofun, fun _ => id⟩
  obtain ⟨hcmp, hpush, hprn, hhlt, hwrites⟩ := hform
  exact ⟨fun r hr => hresult.sameReg (mt (hwrites r) hr), hresult.fl_eq hcmp, fun addr => by rw [hresult.mem_eq hpush],
    hresult.samePorts hprn, hresult.status_eq_or_isFault hhlt⟩

/-- Settles O42: none of these forms writes a register or memory, and CMP, PRN and HLT are the ones that write FL, the output
port and the status. -/
theorem registerKeepingFormsFrame : Obligations.RegisterKeepingFormsFrame := by
  intro a b i s t hi h
  have hresult := exec_result h
  have hform : i.mnemonic ≠ .push ∧ (∀ r, ¬ writesReg i r) ∧ (i ≠ .cmp a b → i.mnemonic ≠ .cmp) ∧
      (i ≠ .prn a → i.mnemonic ≠ .prn) := by
    simp only [List.mem_cons, List.not_mem_nil, or_false] at hi
    obtain rfl | rfl | rfl | rfl | rfl | rfl := hi <;> simp [Instr.mnemonic, writesReg]
  obtain ⟨hpush, hwrites, hcmp, hprn⟩ := hform
  obtain ⟨htrace, henabled⟩ := hresult.trace_eq
  exact ⟨fun r => hresult.sameReg (hwrites r), fun addr => by rw [hresult.mem_eq hpush], fun hi => hresult.fl_eq (hcmp hi),
    fun hi => hresult.output_eq (hprn hi), htrace, henabled, hresult.status_eq_or_isFault⟩

/-- Settles O43: PUSH writes R7 and the byte at its address, and a PUSH that faults has only halted. -/
theorem pushFrame : Obligations.PushFrame := by
  intro a s t h
  have hresult := exec_result h
  refine ⟨fun r hr => hresult.sameReg hr, hresult.fl_eq nofun, hresult.samePorts nofun, hresult.status_eq_or_isFault nofun,
    fun addr => hresult.read_of_ne_pushAddress, fun hfault hs => ?_⟩
  obtain hsame | ⟨hhlt, -⟩ | ⟨c, -, rfl⟩ := hresult.status_cases
  · rw [hsame, hs] at hfault
    exact nomatch hfault
  · exact nomatch hhlt
  · exact ⟨fun _ => rfl, rfl, rfl⟩

/-- Settles O44: POP writes its destination and R7, and no other field but `pc`. -/
theorem popFrame : Obligations.PopFrame := by
  intro a s t h
  have hresult := exec_result h
  exact ⟨fun r h7 ha => hresult.sameReg fun hw => hw.elim ha h7, hresult.fl_eq nofun,
    fun addr => by rw [hresult.mem_eq nofun], hresult.samePorts nofun, hresult.status_eq_or_isFault nofun⟩

end Sys2Proof.Machine
end

section
/-! PROOFS of the family 43_stack.md, sequences: what a completed PUSH and a completed POP leave for the next instruction, the
PUSHes down to the boundary (R143), and the round trip across balanced pairs (R144). -/

namespace Sys2Proof.Machine

section Completed

variable {s t : State} {r : Reg}

/-- A PUSH that completed has lowered SP and stored the register there. -/
theorem exec_push_completed (h : exec (.push (regByte r)) s = .next t) (ht : t.status = .running) :
    s.pushOverflows = false ∧ (∀ q, t.reg q = if q = 7 then BitVec.ofNat 8 ((s.reg 7).toNat - 1) else s.reg q) ∧
      t.mem = s.mem.write ((s.reg 7).toNat - 1) (t.reg r) := by
  rcases settle_cases h with ⟨u, hu, rfl⟩ | ⟨c, -, rfl⟩
  · obtain ⟨ra, hra, -, -, -, ho, rfl⟩ := pushHandler_ok hu
    obtain rfl := regByte_inj.1 hra
    simp [ho, pushAddress_eq ho, spIndex_eq, eq_comm]
  · exact nomatch ht

/-- A POP that completed, into another register than R7, has read the byte at SP and raised SP below the stack top. -/
theorem exec_pop_completed (hr : r ≠ 7) (h : exec (.pop (regByte r)) s = .next t) (ht : t.status = .running) :
    t.reg r = s.mem.read (s.reg 7).toNat ∧ t.mem = s.mem ∧
      t.reg 7 = if (s.reg 7).toNat < 0xF4 then BitVec.ofNat 8 ((s.reg 7).toNat + 1) else s.reg 7 := by
  rcases settle_cases h with ⟨u, hu, rfl⟩ | ⟨c, -, rfl⟩
  · obtain ⟨ra, hra, -, rfl⟩ := popHandler_ok hu
    obtain rfl := regByte_inj.1 hra
    simp [spIndex_eq, hr, hr.symm, stackTop]
  · exact nomatch ht

end Completed

/-- Settles O48: the fetch reads the memory that the PUSH left, at the address it stored to. -/
theorem fetchSeesPushedByte : Obligations.FetchSeesPushedByte := by
  intro r s t u h _ ht humem huaddr hupc
  obtain ⟨ho, -, hmem⟩ := exec_push_completed h ht
  have hpc : u.pc = (s.reg 7).toNat - 1 := by
    rw [pushAddress_eq ho] at huaddr
    exact Int.ofNat_inj.1 huaddr
  exact ⟨_, fetch_ok.2 ⟨hupc, rfl⟩, by simp [humem, hmem, hpc]⟩

section Sequences

variable {s t : State} {i : Instr} {l l' : List Instr}

theorem runInstrs_cons (h : runInstrs (i :: l) s = .next t) :
    s.status = .running ∧ ∃ u, exec i s = .next u ∧ runInstrs l u = .next t := by
  unfold runInstrs at h
  split at h
  · exact nomatch h
  next hs =>
    obtain ⟨u, hu⟩ := exec_answers i s
    rw [hu] at h
    exact ⟨hs, u, hu, h⟩

theorem runInstrs_cons_running (hs : s.status = .running) (hu : exec i s = .next t) :
    runInstrs (i :: l) s = runInstrs l t := by
  simp [runInstrs, hs, hu]

theorem runInstrs_append (h : runInstrs (l ++ l') s = .next t) :
    ∃ u, runInstrs l s = .next u ∧ runInstrs l' u = .next t := by
  induction l generalizing s with
  | nil => exact ⟨s, rfl, h⟩
  | cons i l ih =>
    obtain ⟨hs, u, hu, hrest⟩ := runInstrs_cons h
    obtain ⟨v, hl, hl'⟩ := ih hrest
    exact ⟨v, (runInstrs_cons_running hs hu).trans hl, hl'⟩

/-- A sequence that ends running began running. -/
theorem runInstrs_running (h : runInstrs l s = .next t) (ht : t.status = .running) : s.status = .running := by
  cases l with
  | nil =>
    obtain rfl := Host.Outcome.next.inj h
    exact ht
  | cons i l => exact (runInstrs_cons h).1

end Sequences

/-- A running machine in which PUSH of `r` reads no unset register. -/
structure PushReady (r : Reg) (s : State) : Prop where
  running : s.status = .running
  sp_set : s.isUnset spIndex = false
  bound_set : s.isUnset boundIndex = false
  reg_set : s.isUnset r = false

theorem PushReady.push {r : Reg} {s : State} (h : PushReady r s) (hsp : (s.reg 4).toNat + 1 ≤ (s.reg 7).toNat) :
    ∃ t, exec (.push (regByte r)) s = .next t ∧ PushReady r t ∧ (t.reg 7).toNat = (s.reg 7).toNat - 1 ∧
      t.reg 4 = s.reg 4 := by
  have hexec := exec_push_stores h.sp_set h.bound_set h.reg_set (pushOverflows_false_iff.2 hsp)
  have hresult := exec_result hexec
  obtain ⟨-, hregs, -⟩ := exec_push_completed hexec h.running
  have h7 := (s.reg 7).isLt
  refine ⟨_, hexec, ⟨h.running, hresult.isUnset_false h.sp_set, hresult.isUnset_false h.bound_set,
    hresult.isUnset_false h.reg_set⟩, ?_, hregs 4⟩
  rw [hregs, if_pos rfl, BitVec.toNat_ofNat, Nat.mod_eq_of_lt (by omega)]

theorem PushReady.pushes {r : Reg} (n : Nat) {s : State} (h : PushReady r s) (hsp : (s.reg 4).toNat + n ≤ (s.reg 7).toNat) :
    ∃ t, runInstrs (List.replicate n (.push (regByte r))) s = .next t ∧ PushReady r t ∧
      (t.reg 7).toNat = (s.reg 7).toNat - n ∧ t.reg 4 = s.reg 4 := by
  induction n generalizing s with
  | zero => exact ⟨s, rfl, h, rfl, rfl⟩
  | succ n ih =>
    obtain ⟨u, hexec, hu, hu7, hu4⟩ := h.push (by omega)
    obtain ⟨t, hrun, ht, ht7, ht4⟩ := ih hu (by rw [hu7, hu4]; omega)
    exact ⟨t, (runInstrs_cons_running h.running hexec).trans hrun, ht, by omega, ht4.trans hu4⟩

/-- Settles O55: each PUSH lowers SP by one and leaves R4, so that SP is at R4 when the boundary is reached. -/
theorem pushesSucceedDownToBoundaryThenOverflow : Obligations.PushesSucceedDownToBoundaryThenOverflow := by
  intro r s n hs h7 h4 hr hsp
  obtain ⟨t, hrun, ht, ht7, ht4⟩ := PushReady.pushes n ⟨hs, h7, h4, hr⟩ hsp
  refine ⟨t, hrun, ht.running, ht7, ht4, fun hn => ?_⟩
  have hbound : t.reg 7 = s.reg 4 := BitVec.eq_of_toNat_eq (by omega)
  have ho : t.pushOverflows = true := pushOverflows_iff.2 (by rw [hbound, ht4]; omega)
  exact ⟨_, exec_push_overflows ht.sp_set ht.bound_set ht.reg_set ho, by rw [hbound]; rfl, rfl⟩

/-- SP has its value again, and no byte at or above it has changed. -/
structure StackKept (s t : State) : Prop where
  sp : t.reg 7 = s.reg 7
  read : ∀ addr, (s.reg 7).toNat ≤ addr → t.mem.read addr = s.mem.read addr

theorem StackKept.trans {s t u : State} (h : StackKept s t) (h' : StackKept t u) : StackKept s u :=
  ⟨h'.sp.trans h.sp, fun addr ha => (h'.read addr (h.sp ▸ ha)).trans (h.read addr ha)⟩

/-- A pair around a sequence that keeps the stack keeps it too, and carries the pushed value to the POP's register. -/
theorem runInstrs_pair {r r' : Reg} {l : List Instr} {s t : State} (hr' : r' ≠ 7) (hsp : (s.reg 7).toNat ≤ 0xF4)
    (hl : ∀ u v, (u.reg 7).toNat ≤ 0xF4 → runInstrs l u = .next v → v.status = .running → StackKept u v)
    (h : runInstrs (.push (regByte r) :: (l ++ [.pop (regByte r')])) s = .next t) (ht : t.status = .running) :
    StackKept s t ∧ (r ≠ 7 → t.reg r' = s.reg r) := by
  obtain ⟨-, u, hpush, hrest⟩ := runInstrs_cons h
  obtain ⟨v, hv, hlast⟩ := runInstrs_append hrest
  obtain ⟨hvrun, w, hpop, hnil⟩ := runInstrs_cons hlast
  obtain rfl : w = t := Host.Outcome.next.inj hnil
  obtain ⟨ho, hureg, humem⟩ := exec_push_completed hpush (runInstrs_running hv hvrun)
  obtain ⟨hwreg, hwmem, hwsp⟩ := exec_pop_completed hr' hpop ht
  have hbound := pushOverflows_false_iff.1 ho
  have h7 := (s.reg 7).isLt
  have husp : (u.reg 7).toNat = (s.reg 7).toNat - 1 := by
    rw [hureg, if_pos rfl, BitVec.toNat_ofNat, Nat.mod_eq_of_lt (by omega)]
  have hkept : StackKept u v := hl u v (by omega) hv hvrun
  refine ⟨⟨?_, fun addr ha => ?_⟩, fun hr => ?_⟩
  · rw [hwsp, hkept.sp, husp, if_pos (by omega), Nat.sub_add_cancel (by omega), BitVec.ofNat_toNat, BitVec.setWidth_eq]
  · rw [hwmem, hkept.read addr (by omega), humem, Memory.read_write, if_neg (by omega)]
  · rw [hwreg, hkept.sp, hkept.read _ le_rfl, humem, husp, Memory.read_write, if_pos rfl, hureg, if_neg hr]

/-- A balanced sequence keeps the stack, by induction on how it is put together. -/
theorem Balanced.stackKept {l : List Instr} (hl : Balanced l) :
    ∀ s t : State, (s.reg 7).toNat ≤ 0xF4 → runInstrs l s = .next t → t.status = .running → StackKept s t := by
  induction hl with
  | nil =>
    intro s t _ h _
    obtain rfl := Host.Outcome.next.inj h
    exact ⟨rfl, fun _ _ => rfl⟩
  | pair r r' hr' _ ih => exact fun s t hsp h ht => (runInstrs_pair hr' hsp ih h ht).1
  | append _ _ ih ih' =>
    intro s t hsp h ht
    obtain ⟨u, hu, hu'⟩ := runInstrs_append h
    have hkept := ih s u hsp hu (runInstrs_running hu' ht)
    exact hkept.trans (ih' u t (hkept.sp ▸ hsp) hu' ht)

/-- Settles O56: the sequence is one more pair around a balanced one. -/
theorem stackRoundTripAcrossBalancedPairs : Obligations.StackRoundTripAcrossBalancedPairs := by
  intro r r' l s t hr hr' hsp hl _ h ht
  obtain ⟨hkept, hvalue⟩ := runInstrs_pair hr' hsp hl.stackKept h ht
  exact ⟨hvalue hr, hkept.sp⟩

end Sys2Proof.Machine
end
